-- ==== Sys2Proof/Word.lean ====
section
/-! DEFINITION. The two word types of the engine: the 64-bit word of every state word, operand, output and seed
(00_scope.md R5, R6) and the 196-bit command word (30_encoding.md R35). The plainest arithmetic, wrapping `+` and `*`,
bitwise `^^^`, `|||`, logical shifts and the unsigned order (R7), is that of `BitVec` itself. -/

namespace Sys2Proof

/-- A word: 64 bits, bit 0 the least significant, always unsigned (R5 `W`, R6). -/
abbrev Word := BitVec 64

/-- A command word: 196 bits, moved whole, never split into bytes (R26, R35). -/
abbrev CommandWord := BitVec 196

end Sys2Proof
end

