-- ==== Sys2Proof/Syntax.lean ====
section
/-! DEFINITION. The commands of the engine, which are its instructions (00_scope.md R9): one constructor for each of the
sixteen rows of spec/opcode_table.json, six commands and ten reserved opcodes. A constructor carries exactly the operand
fields its command reads (30_encoding.md R36); an ignored field is no part of the instruction (R41). -/

namespace Sys2Proof

/-- A decoded command (R37, R39). -/
inductive Instr where
  /-- `0x1`: construct the State from a seed (41_seeding.md R71). -/
  | init (seed : Word)
  /-- `0x2`: construct the State of one stream of a deterministic partition (42_stream_partitioner.md R81). -/
  | initStream (seed streamIndex streamCount : Word)
  /-- `0x3`: one step, one output word (40_step.md R56). -/
  | next
  /-- `0x4`: n steps, n output words (40_step.md R57). -/
  | nextN (n : Word)
  /-- `0x5`: set the State directly (43_state_access.md R87). -/
  | load (fastLoop slowLoop mix : Word)
  /-- `0x6`: observe the State (43_state_access.md R88). -/
  | read
  /-- `0x0`: a reserved opcode (30_encoding.md R40). -/
  | reserved0
  /-- `0x7`: a reserved opcode (30_encoding.md R40). -/
  | reserved7
  /-- `0x8`: a reserved opcode (30_encoding.md R40). -/
  | reserved8
  /-- `0x9`: a reserved opcode (30_encoding.md R40). -/
  | reserved9
  /-- `0xA`: a reserved opcode (30_encoding.md R40). -/
  | reservedA
  /-- `0xB`: a reserved opcode (30_encoding.md R40). -/
  | reservedB
  /-- `0xC`: a reserved opcode (30_encoding.md R40). -/
  | reservedC
  /-- `0xD`: a reserved opcode (30_encoding.md R40). -/
  | reservedD
  /-- `0xE`: a reserved opcode (30_encoding.md R40). -/
  | reservedE
  /-- `0xF`: a reserved opcode (30_encoding.md R40). -/
  | reservedF
  deriving DecidableEq, Repr

end Sys2Proof
end

