-- ==== Sys2Proof/WellFormed.lean ====
section
/-! DEFINITION. When an instruction is well formed. Every operand is a whole 64-bit field taken as it stands, with no value
of it excluded (30_encoding.md R36), and its type already bounds it, so the check has nothing to refuse: no term of `Instr`
is ill formed. The operand check that the spec does make, of INIT_STREAM (42_stream_partitioner.md R78), is made when the
command runs and answers a fault; it is no condition on the instruction. Which COMMAND WORDS are in the encoder's form is a
check that can refuse: `CommandWord.canonical` in Decode.lean. -/

namespace Sys2Proof

/-- Every decoded command is well formed (R36, R39), constructor by constructor. -/
def Instr.wellFormed : Instr → Bool
  | .init _ => true
  | .initStream _ _ _ => true
  | .next => true
  | .nextN _ => true
  | .load _ _ _ => true
  | .read => true
  | .reserved0 => true
  | .reserved7 => true
  | .reserved8 => true
  | .reserved9 => true
  | .reservedA => true
  | .reservedB => true
  | .reservedC => true
  | .reservedD => true
  | .reservedE => true
  | .reservedF => true

end Sys2Proof
end

