-- ==== Sys2Proof/Decode.lean ====
section
/-! DEFINITION. Decoding a command word and encoding a command (30_encoding.md R35 to R46). A command word is
`op · 2^192 + a · 2^128 + b · 2^64 + c`; decoding is total and looks at `op` alone (R39); the encoder writes the canonical
word, with zeros in the fields a command ignores (R41, R46). -/

namespace Sys2Proof

/-- Bits 195:192, the opcode (R35). -/
def CommandWord.op (w : CommandWord) : BitVec 4 := w.extractLsb' 192 4

/-- Bits 191:128, the first operand word (R35). -/
def CommandWord.a (w : CommandWord) : Word := w.extractLsb' 128 64

/-- Bits 127:64, the second operand word (R35). -/
def CommandWord.b (w : CommandWord) : Word := w.extractLsb' 64 64

/-- Bits 63:0, the third operand word (R35). -/
def CommandWord.c (w : CommandWord) : Word := w.extractLsb' 0 64

/-- The decoder of R39: by `op` alone, every command word decodes. -/
def decode (w : CommandWord) : Instr :=
  if w.op = 0x1#4 then .init w.a
  else if w.op = 0x2#4 then .initStream w.a w.b w.c
  else if w.op = 0x3#4 then .next
  else if w.op = 0x4#4 then .nextN w.a
  else if w.op = 0x5#4 then .load w.a w.b w.c
  else if w.op = 0x6#4 then .read
  else if w.op = 0x0#4 then .reserved0
  else if w.op = 0x7#4 then .reserved7
  else if w.op = 0x8#4 then .reserved8
  else if w.op = 0x9#4 then .reserved9
  else if w.op = 0xA#4 then .reservedA
  else if w.op = 0xB#4 then .reservedB
  else if w.op = 0xC#4 then .reservedC
  else if w.op = 0xD#4 then .reservedD
  else if w.op = 0xE#4 then .reservedE
  else .reservedF

/-- The opcode of each command (R37). -/
def Instr.opcode : Instr → BitVec 4
  | .init _ => 0x1#4
  | .initStream _ _ _ => 0x2#4
  | .next => 0x3#4
  | .nextN _ => 0x4#4
  | .load _ _ _ => 0x5#4
  | .read => 0x6#4
  | .reserved0 => 0x0#4
  | .reserved7 => 0x7#4
  | .reserved8 => 0x8#4
  | .reserved9 => 0x9#4
  | .reservedA => 0xA#4
  | .reservedB => 0xB#4
  | .reservedC => 0xC#4
  | .reservedD => 0xD#4
  | .reservedE => 0xE#4
  | .reservedF => 0xF#4

/-- The word `{op, a, b, c}` (R35, R44 `.word`). -/
def commandWord (op : BitVec 4) (a b c : Word) : CommandWord :=
  op ++ a ++ b ++ c

/-- The canonical encoding of a command (R41, R44, R46); for a reserved opcode, the word with zero operand fields (log 17). -/
def encode : Instr → CommandWord
  | .init seed => commandWord 0x1#4 seed 0 0
  | .initStream seed i k => commandWord 0x2#4 seed i k
  | .next => commandWord 0x3#4 0 0 0
  | .nextN n => commandWord 0x4#4 n 0 0
  | .load f s m => commandWord 0x5#4 f s m
  | .read => commandWord 0x6#4 0 0 0
  | .reserved0 => commandWord 0x0#4 0 0 0
  | .reserved7 => commandWord 0x7#4 0 0 0
  | .reserved8 => commandWord 0x8#4 0 0 0
  | .reserved9 => commandWord 0x9#4 0 0 0
  | .reservedA => commandWord 0xA#4 0 0 0
  | .reservedB => commandWord 0xB#4 0 0 0
  | .reservedC => commandWord 0xC#4 0 0 0
  | .reservedD => commandWord 0xD#4 0 0 0
  | .reservedE => commandWord 0xE#4 0 0 0
  | .reservedF => commandWord 0xF#4 0 0 0

/-- A command word in the encoder's form: every field its command ignores is zero (R36, R41), and with a reserved opcode every
operand field is (log 17). A word that is not canonical decodes all the same. -/
def CommandWord.canonical (w : CommandWord) : Bool :=
  match decode w with
  | .init _ => w.b = 0 ∧ w.c = 0
  | .initStream _ _ _ => true
  | .next => w.a = 0 ∧ w.b = 0 ∧ w.c = 0
  | .nextN _ => w.b = 0 ∧ w.c = 0
  | .load _ _ _ => true
  | .read => w.a = 0 ∧ w.b = 0 ∧ w.c = 0
  | .reserved0 => w.a = 0 ∧ w.b = 0 ∧ w.c = 0
  | .reserved7 => w.a = 0 ∧ w.b = 0 ∧ w.c = 0
  | .reserved8 => w.a = 0 ∧ w.b = 0 ∧ w.c = 0
  | .reserved9 => w.a = 0 ∧ w.b = 0 ∧ w.c = 0
  | .reservedA => w.a = 0 ∧ w.b = 0 ∧ w.c = 0
  | .reservedB => w.a = 0 ∧ w.b = 0 ∧ w.c = 0
  | .reservedC => w.a = 0 ∧ w.b = 0 ∧ w.c = 0
  | .reservedD => w.a = 0 ∧ w.b = 0 ∧ w.c = 0
  | .reservedE => w.a = 0 ∧ w.b = 0 ∧ w.c = 0
  | .reservedF => w.a = 0 ∧ w.b = 0 ∧ w.c = 0

/-- Why a number is no command word. -/
inductive DecodeError where
  /-- It has a bit above bit 195: a command word has 196 bits and no other length exists (R35, R43). -/
  | longerThanCommandWord
  deriving DecidableEq, Repr

/-- The command word a number stands for (R26, R35: words are numbers, and there is no other length). -/
def commandWordOfNat (w : Nat) : Except DecodeError CommandWord :=
  if w < 2 ^ 196 then .ok (BitVec.ofNat 196 w) else .error .longerThanCommandWord

/-- The command that the number formed by the low `nbits` bits of `w` encodes, the bits above them being zero. -/
def decodeTableWord (nbits w : Nat) : Option Instr :=
  match commandWordOfNat (w % 2 ^ nbits) with
  | .ok cw => some (decode cw)
  | .error _ => none

end Sys2Proof
end

