-- ==== Sys2Proof/Config.lean ====
section
/-! DEFINITION. What an implementation fixes. Of the parameters of 00_scope.md R5 only the finalizer `FIN` is left open
by the spec; R5 and 41_seeding.md R68 let a model take it as a configuration field, and the seeding operations here do,
so that what is stated for every `Config` holds whatever finalizer is built in. The finalizer this engine is built with is
`Sys2Proof.Machine.engineConfig` (Machine/Seeding.lean), and the constants of R5 stand in Machine/Ops.lean. -/

namespace Sys2Proof

/-- The one open parameter of the engine: the avalanche finalizer of the seeding splitter, a total function that depends on
its argument alone (R68). -/
structure Config where
  fin : Word → Word

/-- The named property FIN-zero of R68: the finalizer gives zero exactly at zero. -/
def Config.FinZero (cfg : Config) : Prop :=
  ∀ v : Word, cfg.fin v = 0 ↔ v = 0

/-- The named property FIN-bijective of R68. -/
def Config.FinBijective (cfg : Config) : Prop :=
  Function.Bijective cfg.fin

end Sys2Proof
end

