-- ==== Sys2Proof/Machine/State.lean ====
section
/-! DEFINITION. The state of one engine instance and of its host interface, as plain data, and the state after reset
(10_state.md, 70_reset_and_hazards.md). -/

namespace Sys2Proof.Machine

/-- The 192-bit state register: three 64-bit words that do not alias, always listed in this order (R13 to R16). -/
structure Triple where
  /-- `x[0]`, changed by every step (R14). -/
  fastLoop : Word
  /-- `x[1]`, changed only by a step that starts with `fastLoop = 0` (R15). -/
  slowLoop : Word
  /-- `x[2]`, the nonlinear accumulator (R16). -/
  mix : Word
  deriving DecidableEq, Repr

/-- The faults of the engine (60_exceptions.md R91). A fault is a status in a response, never a stop of the machine. -/
inductive CommandFault where
  /-- A drawn field was zero and so was its one redraw: INIT, INIT_STREAM (R96). -/
  | invalidSeed
  /-- The operands of INIT_STREAM are not valid (R95). -/
  | invalidStream
  /-- NEXT, NEXT_N or READ while `valid = 0` (R94). -/
  | notSeeded
  /-- A reserved opcode (R93). -/
  | illegalCommand
  deriving DecidableEq, Repr

/-- The status of a response: five values and no other (R91, 93_implementation_defined.md U12). -/
inductive Status where
  | ok
  | fault (f : CommandFault)
  deriving DecidableEq, Repr

/-- A response: a status, then a sequence of data words, in order (30_encoding.md R38). -/
structure Response where
  status : Status
  data : List Word
  deriving DecidableEq, Repr

/-- What the host takes from the engine in one go: the status of a response or one of its data words (R38). -/
inductive Beat where
  | status (st : Status)
  | word (v : Word)
  deriving DecidableEq, Repr

/-- What the host does to the engine (00_scope.md R12). -/
inductive HostEvent where
  /-- It presents a command word. -/
  | command (w : CommandWord)
  /-- It takes the next beat of the response in progress. -/
  | take
  /-- It applies reset (70_reset_and_hazards.md R105). -/
  | reset
  deriving DecidableEq, Repr

/-- The state. `words` and `outgoing` are the engine's; `input` and `delivered` are the host's side of the interface, which
the step needs to be a function of the state (logs 2 and 7). -/
structure State where
  /-- The state register: `none` while it holds no value, that is while `valid = 0` (R18, R22; log 1). -/
  words : Option Triple
  /-- The undelivered part of the response of the command in progress; empty when the engine is idle (R21, R38, R106). -/
  outgoing : List Beat
  /-- What the host does next, in order (R12, R30). -/
  input : List HostEvent
  /-- What the host has taken so far, oldest first (R100, R107). -/
  delivered : List Beat
  deriving DecidableEq, Repr

/-- Stops of the machine with a fault: there is none. Every fault of the spec is answered in a response and the engine is at
once ready for the next command (R92, R98, R100; log 10). Nobody raises one; having none is safe and unsafe for nothing. -/
inductive Fault where
  deriving DecidableEq, Repr

/-- Why the machine offers no next state. -/
inductive Refusal where
  /-- Raised by an arm of `exec` for an instruction without a meaning; no arm does so in this model. Safe: the machine
  stops where the hardware goes on. -/
  | notModelled (mnemonic : String)
  /-- Raised by the step alone, when the host presents a command while one is in progress: the spec does not say what the
  engine does then and gives the host no such move (R115, U7; log 5). Safe: nothing is claimed of such a host. -/
  | commandWhileBusy
  deriving DecidableEq, Repr

/-- What running a command answers. -/
abbrev Result := Host.Outcome State Fault Refusal

/-- After reset: unseeded, idle, and nothing more (R22, R106); no event of the host pending and nothing delivered (logs 2
and 7). -/
def State.reset : State :=
  { words := none, outgoing := [], input := [], delivered := [] }

end Sys2Proof.Machine
end

