-- ==== Sys2Proof/Machine/Ops.lean ====
section
/-! DEFINITION. The constants of the block (00_scope.md R5, 10_state.md R24), its arithmetic beyond plain `BitVec`
(R7), writing the state register, answering a command, taking a fault, and what the host does beside commands: taking a
beat and applying reset. -/

namespace Sys2Proof.Machine

/-- `GR` (R5). -/
def gr : Word := 0x9e3779b97f4a7c15#64

/-- `ROT_MIX` (R5). -/
def rotMix : Nat := 59

/-- `ROT_FAST` (R5). -/
def rotFast : Nat := 47

/-- `STREAM_BASE` (R5). -/
def streamBase : Nat := 1

/-- `STREAM_COUNT_MAX` (R5). -/
def streamCountMax : Nat := 2 ^ 63

/-- Circular left rotation by the formula of R7. It is evaluated at 47 and 59 only; outside 1 to 63 the formula is one total
extension among others (U4; log 14). -/
def rotl (x : Word) (k : Nat) : Word :=
  (x <<< k) ||| (x >>> (64 - k))

/-- Write all three words and set `valid`, one atomic action (R18, R23). -/
def State.construct (s : State) (w : Triple) : State :=
  { s with words := some w }

/-- The beats of a response in the order the host takes them: the status, then each data word (R38). -/
def responseBeats (r : Response) : List Beat :=
  .status r.status :: r.data.map .word

/-- `respond(st, data)`: the command ends and its response is offered to the host (R8, R38). -/
def respond (r : Response) (s : State) : State :=
  { s with outgoing := s.outgoing ++ responseBeats r }

/-- `raise F`, the engine's trap entry (R8, R92): the response is the fault's status with no data word, and nothing else
changes. There is no return from a fault, since it leaves nothing to restore (R100). -/
def raise (f : CommandFault) (s : State) : State :=
  respond { status := .fault f, data := [] } s

/-- The host takes the next beat of the response in progress, if one is offered (R12, R116). With none offered nothing is
handed over and the state is held (R12, R99; log 3). -/
def takeBeat (s : State) : State :=
  match s.outgoing with
  | [] => s
  | x :: rest => { s with outgoing := rest, delivered := s.delivered ++ [x] }

/-- The reset event (R105 to R107): `valid` 0, the words lose their value, the command in progress is abandoned with its
undelivered beats; what was delivered stays delivered. -/
def applyReset (s : State) : State :=
  { s with words := none, outgoing := [] }

end Sys2Proof.Machine
end

