-- ==== Sys2Proof/Machine/Flags.lean ====
section
/-! DEFINITION. The one flag of the engine, `valid` (10_state.md R18), the check that reads it, and the 3-bit status codes
(60_exceptions.md R91). No arithmetic sets or reads a flag (R18). -/

namespace Sys2Proof.Machine

/-- The flag `valid`: the state register holds a value (R18; U1: "`valid` is 'is some'"). -/
def State.valid (s : State) : Bool := s.words.isSome

/-- Run a rule that reads the state register, after the check every such rule makes first: `if valid == 0 then raise
NotSeeded` (R56, R57, R88, R94). -/
def whenSeeded (s : State) (rule : Triple → State) : Result :=
  match s.words with
  | none => .next (raise .notSeeded s)
  | some w => .next (rule w)

/-- The code a status has in the 3-bit status field of a response (R91). -/
def statusCode : Status → BitVec 3
  | .ok => 0
  | .fault .invalidSeed => 1
  | .fault .invalidStream => 2
  | .fault .notSeeded => 3
  | .fault .illegalCommand => 4

end Sys2Proof.Machine
end

