-- ==== Sys2Proof/Machine/Operands.lean ====
section
/-! DEFINITION. What commands read out of their operand words. Every operand is a whole unsigned 64-bit field
(30_encoding.md R36): a word as it stands, or a count, or the index and count of a stream
(42_stream_partitioner.md R78 to R80). -/

namespace Sys2Proof.Machine

/-- The operand `n` of NEXT_N as a count, 0 to 2^64 - 1 (40_step.md R57). -/
def repeatCount (n : Word) : Nat := n.toNat

/-- Operand validity of INIT_STREAM (R78): `1 <= stream_count <= 2^63` and `stream_index < stream_count`. -/
def streamValid (index count : Word) : Bool :=
  1 ≤ count.toNat && count.toNat ≤ streamCountMax && index.toNat < count.toNat

/-- The spacing `q = floor(2^64 / stream_count)`, in unbounded integers (R79). -/
def streamSpacing (count : Word) : Nat := 2 ^ 64 / count.toNat

/-- The `slow_loop` of a stream, `1 + stream_index · q` (R79). -/
def streamSlow (index count : Word) : Word :=
  BitVec.ofNat 64 (streamBase + index.toNat * streamSpacing count)

/-- The splitter start of a stream, `seed + (2 · stream_index) * GR` (R80). -/
def streamSplitter (seed index : Word) : Word :=
  seed + (2 * index) * gr

end Sys2Proof.Machine
end

