-- ==== Sys2Proof/Machine/Access.lean ====
section
/-! DEFINITION. Direct state access, the commands LOAD and READ (43_state_access.md). -/

namespace Sys2Proof.Machine

/-- LOAD (R87): no check, every State is accepted (R89). -/
def execLoad (fastLoop slowLoop mix : Word) (s : State) : Result :=
  .next (respond { status := .ok, data := [] }
    (s.construct { fastLoop := fastLoop, slowLoop := slowLoop, mix := mix }))

/-- READ (R88): the three words in order, and no side effect. -/
def execRead (s : State) : Result :=
  whenSeeded s fun w => respond { status := .ok, data := [w.fastLoop, w.slowLoop, w.mix] } s

end Sys2Proof.Machine
end

