-- ==== Sys2Proof/Machine/Seeding.lean ====
section
/-! DEFINITION. The seeding logic and the command INIT (41_seeding.md), for any finalizer, and the finalizer the engine is
built with. The splitter is a value passed along and dropped at the end (10_state.md R20). -/

namespace Sys2Proof.Machine

/-- The default finalizer, the output function of SplitMix64 (R69). PRESUMED: the spec itself marks its five numbers as
general knowledge (G1; log 6). -/
def finSM64 (z : Word) : Word :=
  let z1 := (z ^^^ (z >>> 30)) * 0xbf58476d1ce4e5b9#64
  let z2 := (z1 ^^^ (z1 >>> 27)) * 0x94d049bb133111eb#64
  z2 ^^^ (z2 >>> 31)

/-- The engine built to the spec instantiates `FIN = FIN_SM64` (R68). -/
def engineConfig : Config := { fin := finSM64 }

/-- One draw: advance the splitter by `GR`, apply the finalizer to the advanced value; the word and the new splitter
(R67). -/
def draw (cfg : Config) (spl : Word) : Word × Word :=
  (cfg.fin (spl + gr), spl + gr)

/-- Draw a non-zero word: one redraw after a zero, then `none` for `Fail` (R70). -/
def drawNz (cfg : Config) (spl : Word) : Option (Word × Word) :=
  let d1 := draw cfg spl
  if d1.1 ≠ 0 then some d1
  else
    let d2 := draw cfg d1.2
    if d2.1 ≠ 0 then some d2 else none

/-- The State INIT constructs from a seed, drawn in the order `fast_loop`, `slow_loop`, `mix`; `none` if a draw fails
(R71). -/
def initTriple (cfg : Config) (seed : Word) : Option Triple :=
  match drawNz cfg seed with
  | none => none
  | some (wf, spl1) =>
    match drawNz cfg spl1 with
    | none => none
    | some (ws, spl2) =>
      match drawNz cfg spl2 with
      | none => none
      | some (wm, _) => some { fastLoop := wf, slowLoop := ws, mix := wm }

/-- The end of a construction command: on success write the State and answer OK, else raise InvalidSeed with nothing
changed (R71, R73, R81). -/
def finishConstruction (built : Option Triple) (s : State) : State :=
  match built with
  | none => raise .invalidSeed s
  | some w => respond { status := .ok, data := [] } (s.construct w)

/-- INIT for an engine with finalizer `cfg.fin` (R71). It does not look at `valid`. -/
def initWith (cfg : Config) (seed : Word) (s : State) : State :=
  finishConstruction (initTriple cfg seed) s

/-- INIT (R71). -/
def execInit (seed : Word) (s : State) : Result :=
  .next (initWith engineConfig seed s)

end Sys2Proof.Machine
end

