-- ==== Sys2Proof/Machine/Partition.lean ====
section
/-! DEFINITION. The parallel stream partitioner and the command INIT_STREAM (42_stream_partitioner.md). -/

namespace Sys2Proof.Machine

/-- The State INIT_STREAM constructs from valid operands: `slow_loop` by the partition formula, `fast_loop` then `mix`
drawn from the stream's own splitter positions; `none` if a draw fails (R79 to R81). -/
def streamTriple (cfg : Config) (seed index count : Word) : Option Triple :=
  match drawNz cfg (streamSplitter seed index) with
  | none => none
  | some (wf, spl1) =>
    match drawNz cfg spl1 with
    | none => none
    | some (wm, _) => some { fastLoop := wf, slowLoop := streamSlow index count, mix := wm }

/-- INIT_STREAM for an engine with finalizer `cfg.fin` (R81): operand validity first, before any draw (R95, R97), then the
draws. It does not look at `valid`. -/
def initStreamWith (cfg : Config) (seed index count : Word) (s : State) : State :=
  if streamValid index count then finishConstruction (streamTriple cfg seed index count) s
  else raise .invalidStream s

/-- INIT_STREAM (R81). -/
def execInitStream (seed index count : Word) (s : State) : Result :=
  .next (initStreamWith engineConfig seed index count s)

end Sys2Proof.Machine
end

