-- ==== Sys2Proof/Machine/Reserved.lean ====
section
/-! DEFINITION. The ten reserved opcodes `0x0` and `0x7` to `0xF` (30_encoding.md R40, 60_exceptions.md R93): each raises
IllegalCommand, whatever the operand fields and whatever `valid` is, and changes nothing (R92). -/

namespace Sys2Proof.Machine

/-- RESERVED_0x0 (R40, R93). -/
def execReserved0 (s : State) : Result := .next (raise .illegalCommand s)

/-- RESERVED_0x7 (R40, R93). -/
def execReserved7 (s : State) : Result := .next (raise .illegalCommand s)

/-- RESERVED_0x8 (R40, R93). -/
def execReserved8 (s : State) : Result := .next (raise .illegalCommand s)

/-- RESERVED_0x9 (R40, R93). -/
def execReserved9 (s : State) : Result := .next (raise .illegalCommand s)

/-- RESERVED_0xA (R40, R93). -/
def execReservedA (s : State) : Result := .next (raise .illegalCommand s)

/-- RESERVED_0xB (R40, R93). -/
def execReservedB (s : State) : Result := .next (raise .illegalCommand s)

/-- RESERVED_0xC (R40, R93). -/
def execReservedC (s : State) : Result := .next (raise .illegalCommand s)

/-- RESERVED_0xD (R40, R93). -/
def execReservedD (s : State) : Result := .next (raise .illegalCommand s)

/-- RESERVED_0xE (R40, R93). -/
def execReservedE (s : State) : Result := .next (raise .illegalCommand s)

/-- RESERVED_0xF (R40, R93). -/
def execReservedF (s : State) : Result := .next (raise .illegalCommand s)

end Sys2Proof.Machine
end

