-- ==== Sys2Proof/Machine/Stepping.lean ====
section
/-! DEFINITION. The step function and the commands NEXT and NEXT_N (40_step.md). -/

namespace Sys2Proof.Machine

/-- The output function, from the pre-update state (R54). -/
def out (w : Triple) : Word := gr * (w.mix + w.fastLoop)

/-- The next-state function, in the order of R55: the test is on the pre-step `fast_loop`, the exclusive or uses the
`slow_loop` just incremented, and the `fast_loop` added into `mix` is the pre-step one. -/
def nxt (w : Triple) : Triple :=
  let s1 := if w.fastLoop = 0 then w.slowLoop + gr else w.slowLoop
  let m1 := if w.fastLoop = 0 then w.mix ^^^ s1 else w.mix
  { fastLoop := rotl w.fastLoop rotFast + gr
    slowLoop := s1
    mix := rotl m1 rotMix + w.fastLoop }

/-- `n` steps: the outputs in step order, and the state they leave (R57). -/
def stepMany : Nat → Triple → List Word × Triple
  | 0, w => ([], w)
  | n + 1, w => (out w :: (stepMany n (nxt w)).1, (stepMany n (nxt w)).2)

/-- NEXT (R56). -/
def execNext (s : State) : Result :=
  whenSeeded s fun w => respond { status := .ok, data := [out w] } (s.construct (nxt w))

/-- NEXT_N (R57), performed as one transition, which R57 case (c) allows (log 4). -/
def execNextN (n : Word) (s : State) : Result :=
  whenSeeded s fun w =>
    respond { status := .ok, data := (stepMany (repeatCount n) w).1 }
      (s.construct (stepMany (repeatCount n) w).2)

end Sys2Proof.Machine
end

