-- ==== Sys2Proof/Machine/HostSide.lean ====
section
/-! DEFINITION. What the engine does with the host's next move (00_scope.md R12, 20_memory.md R30): this is where a step
gets its command from, since the engine has no program counter and fetches from no memory (10_state.md R17,
20_memory.md R34). -/

namespace Sys2Proof.Machine

/-- What a step comes to. -/
inductive Action where
  /-- No command starts; the state is this. -/
  | settle (s : State)
  /-- Perform the command this word encodes, from this state. -/
  | perform (w : CommandWord) (s : State)
  /-- The host made a move the spec gives it not. -/
  | refuse (r : Refusal)
  deriving DecidableEq, Repr

/-- The next move of the host (R12). With no move the state is held; a beat is taken or reset applied at once; a command is
performed if none is in progress (R9, R30), and refused by name otherwise (R115, U7). -/
def hostMove (s : State) : Action :=
  match s.input with
  | [] => .settle s
  | .reset :: rest => .settle (applyReset { s with input := rest })
  | .take :: rest => .settle (takeBeat { s with input := rest })
  | .command w :: rest =>
    match s.outgoing with
    | [] => .perform w { s with input := rest }
    | _ :: _ => .refuse .commandWhileBusy

/-- The host presents this command word to an idle engine as its very next move: what was left of a response is gone and the
command stands before everything else the host does (log 8). -/
def presentNext (w : CommandWord) (s : State) : State :=
  { s with outgoing := [], input := .command w :: s.input }

end Sys2Proof.Machine
end

