-- ==== Sys2Proof/Machine/Step.lean ====
section
/-! DEFINITION. One step: the host's next move, and if it is a command, that command's whole rule (00_scope.md R9, R12). -/

namespace Sys2Proof.Machine

/-- One step of the engine and its host. -/
def step (s : State) : Host.Outcome State Fault Refusal :=
  match hostMove s with
  | .settle t => .next t
  | .perform w t => exec (decode w) t
  | .refuse r => .refused r

/-- The state in which the host's very next move is to present the command word numbered by the low `nbits` bits of `w`, the
bits above them zero (log 8). A number that is no command word leaves the state as it is. -/
def State.withFetchWord (s : State) (nbits w : Nat) : State :=
  match commandWordOfNat (w % 2 ^ nbits) with
  | .ok cw => presentNext cw s
  | .error _ => s

end Sys2Proof.Machine
end

