-- ==== Sys2Proof/Safety.lean ====
section
/-! DEFINITION. The terms in which claims about the engine are made: the words and statuses in a sequence of beats, the
invariant of the engine and its host interface, non-degeneracy, the inverse of a step, and scripts of host moves. -/

namespace Sys2Proof.Machine

/-- The data words in a sequence of beats, in order. -/
def dataWords : List Beat → List Word
  | [] => []
  | .status _ :: rest => dataWords rest
  | .word v :: rest => v :: dataWords rest

/-- Beats come in responses: a data word stands only behind an OK status, with nothing but data words between, so that a
faulting command has no data word (30_encoding.md R38, 60_exceptions.md R92). `afterOk` says whether the beats before ended
in a response with status OK. -/
def beatsInResponses (afterOk : Bool) : List Beat → Bool
  | [] => true
  | .status st :: rest => beatsInResponses (st = .ok) rest
  | .word _ :: rest => afterOk && beatsInResponses afterOk rest

/-- The invariant of the engine and its host interface. -/
structure State.Inv (s : State) : Prop where
  /-- What the host has taken and what it is still offered are responses: no data word without an OK status before it
  (R38, R92). -/
  responses : beatsInResponses false (s.delivered ++ s.outgoing) = true
  /-- At most one response is in flight: no status stands behind another beat (R9, R12). -/
  oneResponse : ∀ st : Status, Beat.status st ∉ s.outgoing.tail
  /-- A response holds a status and at most 2^64 - 1 data words (R57). -/
  bounded : s.outgoing.length ≤ 2 ^ 64
  /-- An undelivered data word comes from a state register that holds a value (R22, R94, R105). -/
  wordsSeeded : ∀ v : Word, Beat.word v ∈ s.outgoing → s.valid = true

/-- No field is zero (41_seeding.md R72). -/
def Triple.NonZero (w : Triple) : Prop :=
  w.fastLoop ≠ 0 ∧ w.slowLoop ≠ 0 ∧ w.mix ≠ 0

/-- The only value that the `fast_loop` map leaves in place (40_step.md R60). -/
def fixedFast : Word := 0x5050a1e1d03b6432#64

/-- The `mix` of the fixed states (40_step.md R60). -/
def fixedMix : Word := 0x8cb65486003d4ea7#64

/-- The state before a step, by the inverse formulas in the proof of 40_step.md R61. -/
def predecessor (w : Triple) : Triple :=
  if w.fastLoop = gr then
    { fastLoop := 0, slowLoop := w.slowLoop - gr, mix := rotl w.mix 5 ^^^ w.slowLoop }
  else
    let f := rotl (w.fastLoop - gr) 17
    { fastLoop := f, slowLoop := w.slowLoop, mix := rotl (w.mix - f) 5 }

/-- Among the first `n` steps from `w`, how many start with `fast_loop = 0` (10_state.md R15). -/
def slowSteps : Nat → Triple → Nat
  | 0, _ => 0
  | n + 1, w => (if w.fastLoop = 0 then 1 else 0) + slowSteps n (nxt w)

/-- The word at position `j` of the splitter sequence of a start value: `FIN(spl0 + j · GR)` (41_seeding.md R67). -/
def splitterWord (cfg : Config) (spl0 : Word) (j : Nat) : Word :=
  cfg.fin (spl0 + BitVec.ofNat 64 j * gr)

/-- `n` steps, stopping at the first that answers no next state: a run of the engine with its host (20_memory.md R30). -/
def run : Nat → State → Result
  | 0, s => .next s
  | n + 1, s =>
    match step s with
    | .next t => run n t
    | .fault f => .fault f
    | .refused r => .refused r

/-- Commands performed one after another, each from the state the one before left (20_memory.md R30). -/
def perform : List Instr → State → Result
  | [], s => .next s
  | i :: rest, s =>
    match exec i s with
    | .next t => perform rest t
    | .fault f => .fault f
    | .refused r => .refused r

/-- How many output words a command asks for (30_encoding.md R38). -/
def outputsAsked : Instr → Nat
  | .next => 1
  | .nextN n => n.toNat
  | _ => 0

/-- A host that takes `n` beats. -/
def takes (n : Nat) : List HostEvent := List.replicate n .take

/-- A host that asks for `n` words one at a time, taking the status and the word of each response. -/
def singleNexts : Nat → List HostEvent
  | 0 => []
  | n + 1 => .command (encode .next) :: .take :: .take :: singleNexts n

/-- A host that asks for `n` words in one command and takes the status and every word. -/
def bulkNext (n : Word) : List HostEvent :=
  .command (encode (.nextN n)) :: takes (n.toNat + 1)

/-- The response that running a command appended: what stands in `outgoing` behind what stood there before. -/
def answered (before after : State) : List Beat :=
  after.outgoing.drop before.outgoing.length

end Sys2Proof.Machine
end

