-- ==== Sys2Proof/Certificates/Slice0/Obligations.lean ====
section
/-! DEFINITION. The statements about the engine that the provers are asked to settle, in the order of OBLIGATIONS.json. -/

open Sys2Proof Sys2Proof.Machine

/-! ### The step, the host interface and reset -/

/-- When the engine is idle and the host presents a command word, the step is exactly the meaning of the decoded command;
the step adds only that the host's move is used up (00_scope.md R9, 20_memory.md R30). -/
def Obligations.StepPerformsPresentedCommand : Prop :=
  ∀ (s : State) (w : CommandWord) (rest : List HostEvent),
    s.input = .command w :: rest → s.outgoing = [] →
      step s = exec (decode w) { s with input := rest }

/-- Presenting the encoding of any command, numbered as the opcode table numbers it, makes the very next step run exactly
that command, from the same register with nothing of an older response left (00_scope.md R9, 30_encoding.md R35, R44; how the
word is presented is log 8). -/
def Obligations.FetchedTableWordRunsItsCommand : Prop :=
  ∀ (s : State) (i : Instr), i.wellFormed = true →
    step (s.withFetchWord 200 (encode i).toNat) = exec i { s with outgoing := [] }

/-- A host that does nothing leaves the state as it is (00_scope.md R11, R12). -/
def Obligations.IdleHostHoldsState : Prop :=
  ∀ s : State, s.input = [] → step s = .next s

/-- A command presented while a response is not wholly taken is refused by that name (70_reset_and_hazards.md R115;
93_implementation_defined.md U7 "refuse"). The refusal is the model's form of U7, log 5. -/
def Obligations.CommandWhileBusyIsRefused : Prop :=
  ∀ (s : State) (w : CommandWord) (rest : List HostEvent) (x : Beat) (xs : List Beat),
    s.input = .command w :: rest → s.outgoing = x :: xs → step s = .refused .commandWhileBusy

/-- Taking a beat moves the first undelivered beat to what the host has and changes nothing else; with nothing offered it
changes nothing at all (00_scope.md R12, 30_encoding.md R38; the second clause is log 3). -/
def Obligations.TakeDeliversBeatsInOrder : Prop :=
  ∀ (s : State) (rest : List HostEvent), s.input = .take :: rest →
    (∀ (x : Beat) (xs : List Beat), s.outgoing = x :: xs →
      step s = .next { s with input := rest, outgoing := xs, delivered := s.delivered ++ [x] }) ∧
    (s.outgoing = [] → step s = .next { s with input := rest })

/-- Reset, at any time, whether or not a command is in progress: `valid` is 0, the words hold no value, the command is
abandoned, the engine is as after power-on; and no other move clears `valid` or drops an undelivered beat
(70_reset_and_hazards.md R105). -/
def Obligations.ResetAndOnlyResetUnseedsAndAbandons : Prop :=
  (∀ (s : State) (rest : List HostEvent), s.input = .reset :: rest →
    ∃ t : State, step s = .next t ∧ t.valid = false ∧ t.words = State.reset.words ∧
      t.outgoing = State.reset.outgoing ∧ t.delivered = s.delivered ∧ t.input = rest) ∧
  (∀ s t : State, step s = .next t → s.input.head? ≠ some .reset →
    (s.valid = true → t.valid = true) ∧
    s.delivered ++ s.outgoing <+: t.delivered ++ t.outgoing)

/-- A reset that falls during a NEXT_N, after the host has taken `j` beats: the host has the first `j` beats of the right
response, that is the status and the first `j - 1` outputs, and nothing more; the state is the reset state
(70_reset_and_hazards.md R107, 93_implementation_defined.md U6). That the status is the first beat is log 3, that NEXT_N is one
transition log 4, and that `j` is the reset's place among the takes log 9. -/
def Obligations.ResetDuringBulkLeavesCorrectPrefix : Prop :=
  ∀ (s : State) (w : Triple) (n : Word) (j : Nat) (rest : List HostEvent),
    s.words = some w → s.outgoing = [] → j ≤ n.toNat + 1 →
    s.input = .command (encode (.nextN n)) :: (takes j ++ .reset :: rest) →
      run (j + 2) s = .next
        { words := none
          outgoing := []
          input := rest
          delivered := s.delivered ++
            (Beat.status .ok :: (List.range n.toNat).map fun k => Beat.word (out (nxt^[k] w))).take j }

/-- After reset the engine is unseeded and idle, and the three commands that would read the state register answer NotSeeded
and leave it so (10_state.md R22, 70_reset_and_hazards.md R106). -/
def Obligations.ResetStateUnseededAndIdle : Prop :=
  State.reset.valid = false ∧ State.reset.words = none ∧ State.reset.outgoing = [] ∧
  ∀ i : Instr, (i = .next ∨ i = .read ∨ ∃ n : Word, i = .nextN n) →
    exec i State.reset = .next { State.reset with outgoing := [.status (.fault .notSeeded)] }

/-! ### Encoding -/

/-- Decoding of every command word, by its number `op · 2^192 + a · 2^128 + b · 2^64 + c`: the seven outcomes of the decoder,
by `op` alone, with every field a command reads; and every command word is such a number (30_encoding.md R39). -/
def Obligations.DecodeIsTotalAndByOpcode : Prop :=
  (∀ (op : BitVec 4) (a b c : Word),
    decode (BitVec.ofNat 196
        (op.toNat * 2 ^ 192 + a.toNat * 2 ^ 128 + b.toNat * 2 ^ 64 + c.toNat)) =
      match op.toNat with
      | 0x1 => .init a
      | 0x2 => .initStream a b c
      | 0x3 => .next
      | 0x4 => .nextN a
      | 0x5 => .load a b c
      | 0x6 => .read
      | 0x0 => .reserved0
      | 0x7 => .reserved7
      | 0x8 => .reserved8
      | 0x9 => .reserved9
      | 0xA => .reservedA
      | 0xB => .reservedB
      | 0xC => .reservedC
      | 0xD => .reservedD
      | 0xE => .reservedE
      | _ => .reservedF) ∧
  (∀ w : CommandWord,
    w.toNat = w.op.toNat * 2 ^ 192 + w.a.toNat * 2 ^ 128 + w.b.toNat * 2 ^ 64 + w.c.toNat)

/-- Decoding the encoding of any well-formed command gives the command back, with every operand at every value
(30_encoding.md R35, R36, R39, R44). -/
def Obligations.DecodeOfEncodeIsIdentity : Prop :=
  ∀ i : Instr, i.wellFormed = true → decode (encode i) = i

/-- The canonical words are exactly those that encoding what they decode to gives back (30_encoding.md R41, R46). That ignored
fields are dropped and written as zeros is log 12; that a word with a reserved opcode is canonical when its operand fields are
zero is the model's choice, log 17. -/
def Obligations.CanonicalIffEncodeOfDecode : Prop :=
  ∀ w : CommandWord, w.canonical = true ↔ encode (decode w) = w

/-- Command words written out in the spec decode to the commands the spec says they are (30_encoding.md R46 and
95_test_vectors.md section 2.8). -/
def Obligations.PrintedWordsDecode : Prop :=
  decode 0x3000000000000000000000000000000000000000000000000#196 = .next ∧
  decode 0x6000000000000000000000000000000000000000000000000#196 = .read ∧
  decode 0x1000000000000000000000000000000000000000000000000#196 = .init 0 ∧
  decode 0x4000000000000000800000000000000000000000000000000#196 = .nextN 8 ∧
  decode 0x2000000000000002a00000000000000010000000000000004#196 = .initStream 42 1 4 ∧
  decode 0x5000000000000000100000000000000020000000000000003#196 = .load 1 2 3 ∧
  decode 0x3000000000000000100000000000000020000000000000003#196 = .next ∧
  decode 0x6ffffffffffffffffffffffffffffffffffffffffffffffff#196 = .read ∧
  decode 0x1000000000000000700000000000000080000000000000009#196 = .init 7 ∧
  decode 0x9000000000000000100000000000000020000000000000003#196 = .reserved9

/-- The decoder of table words accepts exactly the numbers of 196 bits (30_encoding.md R35, R43). -/
def Obligations.TableWordsAreCommandWords : Prop :=
  ∀ w : Nat, w < 2 ^ 200 →
    (w < 2 ^ 196 → decodeTableWord 200 w = some (decode (BitVec.ofNat 196 w))) ∧
    (2 ^ 196 ≤ w → decodeTableWord 200 w = none)

/-! ### The step function, NEXT and NEXT_N -/

/-- NEXT: every word with opcode 3 is it; on an unseeded engine it answers NotSeeded; on a seeded one it answers one output
word computed from the state before, and leaves the next state of the branch taken; nothing else changes
(40_step.md R55, R56). -/
def Obligations.NextDeliversOutputAndSteps : Prop :=
  (∀ w : CommandWord, w.op = 3 → decode w = .next) ∧
  (∀ s : State, s.words = none →
    exec .next s = .next { s with outgoing := s.outgoing ++ [.status (.fault .notSeeded)] }) ∧
  (∀ (s : State) (f sl m : Word), s.words = some ⟨f, sl, m⟩ →
    exec .next s = .next
      { s with
        words := some
          (if f = 0 then
            ⟨rotl f 47 + 0x9e3779b97f4a7c15, sl + 0x9e3779b97f4a7c15,
              rotl (m ^^^ (sl + 0x9e3779b97f4a7c15)) 59 + f⟩
          else
            ⟨rotl f 47 + 0x9e3779b97f4a7c15, sl, rotl m 59 + f⟩)
        outgoing := s.outgoing ++ [.status .ok, .word (0x9e3779b97f4a7c15 * (m + f))] })

/-- NEXT_N on a seeded engine, for every count: status OK and n data words, output k being that of the state after k steps,
and the state after n steps is left; for n = 0 no word and no change (40_step.md R57). -/
def Obligations.BulkNextDeliversEveryOutput : Prop :=
  ∀ (s : State) (w : Triple) (n : Word), s.words = some w →
    exec (.nextN n) s = .next
      { s with
        words := some (nxt^[n.toNat] w)
        outgoing := s.outgoing ++
          .status .ok :: (List.range n.toNat).map fun k => Beat.word (out (nxt^[k] w)) }

/-- The bulk form. A host that asks for n words with one NEXT_N and a host that asks n times with NEXT, each taking all it is
offered, end with the engine in the same state and idle, and have been given the same data words in the same order, through
the step function and the host interface; and `NEXT_N (j + k)` delivers the words of `NEXT_N j` and then of `NEXT_N k` and
leaves the same state. An unseeded engine gives no word in either form (40_step.md R58). The unseeded case of the first clause
has takes with nothing offered, log 3; NEXT_N is one transition, log 4; the second clause runs `exec` on a state that still
offers beats, log 15. -/
def Obligations.BulkNextEqualsSingleNexts : Prop :=
  (∀ (s : State) (n : Word), s.outgoing = [] →
    ∃ t u : State,
      run (n.toNat + 2) { s with input := bulkNext n } = .next t ∧
      run (3 * n.toNat) { s with input := singleNexts n.toNat } = .next u ∧
      t.words = u.words ∧ t.outgoing = [] ∧ u.outgoing = [] ∧ t.input = [] ∧ u.input = [] ∧
      dataWords t.delivered = dataWords u.delivered) ∧
  (∀ (s : State) (j k : Word), j.toNat + k.toNat < 2 ^ 64 →
    ∃ t u v : State,
      exec (.nextN j) s = .next t ∧ exec (.nextN k) t = .next u ∧ exec (.nextN (j + k)) s = .next v ∧
      v.words = u.words ∧ dataWords (answered s v) = dataWords (answered s t) ++ dataWords (answered t u))

/-- One sequence, however it is asked for: any number of NEXT and NEXT_N commands in any mix, performed one after another from
a seeded engine, all complete, and together deliver `OUT(st)`, `OUT(NXT(st))`, `OUT(NXT^2(st))`, ... without a gap or a
repeat, and leave the state that many steps on (20_memory.md R30). `perform` runs each command after the first on a state that
still offers beats, log 15. -/
def Obligations.AnyMixOfNextsDeliversOneSequence : Prop :=
  ∀ (is : List Instr) (s : State) (w : Triple),
    (∀ i ∈ is, i = .next ∨ ∃ n : Word, i = .nextN n) → s.words = some w →
    ∃ t : State, perform is s = .next t ∧
      t.words = some (nxt^[(is.map outputsAsked).sum] w) ∧
      dataWords (answered s t) = (List.range (is.map outputsAsked).sum).map fun k => out (nxt^[k] w)

/-- The next-state function is a bijection, with the inverse formulas the spec's proof gives (40_step.md R61, marked there as
derived): no two states have the same successor, and every state has a predecessor. -/
def Obligations.StepIsInvertible : Prop :=
  (∀ w : Triple, predecessor (nxt w) = w) ∧ (∀ w : Triple, nxt (predecessor w) = w)

/-- Every state recurs: from it, after some number of steps, the state register holds it again (40_step.md R63, "every state
lies on a cycle", marked there as derived; no length is stated). -/
def Obligations.EveryStateRecurs : Prop :=
  ∀ w : Triple, ∃ n : Nat, 0 < n ∧ nxt^[n] w = w

/-- The fixed points (40_step.md R60, marked there as derived): `fast_loop` stays in place exactly at `X`, and a NEXT leaves
the state register as it was exactly when `fast_loop = X` and `mix = MX`, whatever `slow_loop`. -/
def Obligations.FixedStatesAreExactlyThese : Prop :=
  (∀ x : Word, rotl x 47 + gr = x ↔ x = fixedFast) ∧
  (∀ (s t : State) (w : Triple), s.words = some w → exec .next s = .next t →
    (t.words = s.words ↔ w.fastLoop = fixedFast ∧ w.mix = fixedMix))

/-- From a fixed state every output is `0x49bb72ecea41c7cd` and the state register never changes, for NEXT_N of every count
(40_step.md R60 consequence (b), R56 case (d)). -/
def Obligations.FixedStateOutputIsConstant : Prop :=
  ∀ (s : State) (sl n : Word), s.words = some ⟨fixedFast, sl, fixedMix⟩ →
    exec (.nextN n) s = .next
      { s with outgoing := s.outgoing ++
          .status .ok :: List.replicate n.toNat (.word 0x49bb72ecea41c7cd) }

/-- A state with `fast_loop = X` keeps it, and keeps its `slow_loop`, through NEXT_N of every count (40_step.md R60
consequence (a)). -/
def Obligations.FixedFastLoopStaysForEver : Prop :=
  ∀ (s : State) (sl m n : Word), s.words = some ⟨fixedFast, sl, m⟩ →
    ∃ (t : State) (m' : Word), exec (.nextN n) s = .next t ∧ t.words = some ⟨fixedFast, sl, m'⟩

/-- The all-zero state is not a fixed point: its output is 0 and its successor is the one computed in 40_step.md R62. -/
def Obligations.ZeroStateIsNotFixed : Prop :=
  ∀ s : State, s.words = some ⟨0, 0, 0⟩ →
    exec .next s = .next
      { s with
        words := some ⟨0x9e3779b97f4a7c15, 0x9e3779b97f4a7c15, 0xacf1bbcdcbfa53e0⟩
        outgoing := s.outgoing ++ [.status .ok, .word 0] }

/-- `slow_loop` advances by `GR` exactly once for each step that starts with `fast_loop = 0`, and otherwise never, however
many steps are taken (10_state.md R15, 40_step.md R63). -/
def Obligations.SlowLoopCountsZeroSteps : Prop :=
  ∀ (s : State) (w : Triple) (n : Word), s.words = some w →
    ∃ (t : State) (w' : Triple), exec (.nextN n) s = .next t ∧ t.words = some w' ∧
      w'.slowLoop = w.slowLoop + BitVec.ofNat 64 (slowSteps n.toNat w) * gr

/-- Two states that differ only in `slow_loop` give the same outputs up to and including the first step that starts with
`fast_loop = 0` (40_step.md R64, marked there as derived). -/
def Obligations.SlowLoopReachesNoOutputBeforeSlowStep : Prop :=
  ∀ (s t : State) (f sl sl' m n : Word),
    s.words = some ⟨f, sl, m⟩ → t.words = some ⟨f, sl', m⟩ →
    (∀ k : Nat, k + 1 < n.toNat → (nxt^[k] ⟨f, sl, m⟩).fastLoop ≠ 0) →
    ∃ s' t' : State, exec (.nextN n) s = .next s' ∧ exec (.nextN n) t = .next t' ∧
      answered s s' = answered t t'

/-- Two states give the same output exactly when their sums `mix + fast_loop` are equal, and the output 0 exactly when the
sum is 0; the formula itself is `GR * (mix + fast_loop)` and `slow_loop` does not enter (40_step.md R54). -/
def Obligations.OutputDependsOnSumAlone : Prop :=
  (∀ f sl m : Word, out ⟨f, sl, m⟩ = 0x9e3779b97f4a7c15 * (m + f)) ∧
  (∀ w w' : Triple, out w = out w' ↔ w.mix + w.fastLoop = w'.mix + w'.fastLoop) ∧
  (∀ w : Triple, out w = 0 ↔ w.mix + w.fastLoop = 0)

/-- Rotation: bit i of `rotl(x, k)` is bit (i - k) mod 64 of x, and rotating on by 64 - k gives x back, for every k in
[1, 63] (00_scope.md R7, 40_step.md R52). -/
def Obligations.RotationBitsAndRoundTrip : Prop :=
  ∀ (x : Word) (k : Nat), 1 ≤ k → k ≤ 63 →
    (∀ i : Nat, i < 64 → (rotl x k).getLsbD i = x.getLsbD ((i + 64 - k) % 64)) ∧
    rotl (rotl x k) (64 - k) = x

/-! ### Seeding and INIT -/

/-- A non-zero word is drawn at the next splitter position, or, if that word is zero, at the one after it; if that is zero
too the draw fails; for every finalizer (41_seeding.md R67, R70). -/
def Obligations.NonZeroDrawTriesTwoPositions : Prop :=
  ∀ (cfg : Config) (spl : Word),
    (cfg.fin (spl + gr) ≠ 0 → drawNz cfg spl = some (cfg.fin (spl + gr), spl + gr)) ∧
    (cfg.fin (spl + gr) = 0 → cfg.fin (spl + gr + gr) ≠ 0 →
      drawNz cfg spl = some (cfg.fin (spl + gr + gr), spl + gr + gr)) ∧
    (cfg.fin (spl + gr) = 0 → cfg.fin (spl + gr + gr) = 0 → drawNz cfg spl = none)

/-- INIT for every finalizer. The seed's splitter sequence is `FIN(seed + j · GR)`; INIT gives `fast_loop`, `slow_loop` and
`mix`, in this order, the first three non-zero words, as long as no two words in a row are zero before the third is found;
otherwise it answers InvalidSeed and changes nothing. It does not look at `valid` (41_seeding.md R71, R73). -/
def Obligations.InitTakesFirstNonZeroWords : Prop :=
  ∀ (cfg : Config) (seed : Word) (s : State),
    (∀ p1 p2 p3 : Nat, (p1 = 1 ∨ p1 = 2) → (p2 = p1 + 1 ∨ p2 = p1 + 2) → (p3 = p2 + 1 ∨ p3 = p2 + 2) →
      (∀ j : Nat, 1 ≤ j → j ≤ p3 →
        (splitterWord cfg seed j ≠ 0 ↔ j = p1 ∨ j = p2 ∨ j = p3)) →
      initWith cfg seed s =
        { s with
          words := some ⟨splitterWord cfg seed p1, splitterWord cfg seed p2, splitterWord cfg seed p3⟩
          outgoing := s.outgoing ++ [.status .ok] }) ∧
    ((∀ p1 p2 p3 : Nat, (p1 = 1 ∨ p1 = 2) → (p2 = p1 + 1 ∨ p2 = p1 + 2) → (p3 = p2 + 1 ∨ p3 = p2 + 2) →
      ¬ ∀ j : Nat, 1 ≤ j → j ≤ p3 →
        (splitterWord cfg seed j ≠ 0 ↔ j = p1 ∨ j = p2 ∨ j = p3)) →
      initWith cfg seed s = { s with outgoing := s.outgoing ++ [.status (.fault .invalidSeed)] })

/-- INIT on the engine as built completes for every seed, in every state, seeded or not: status OK, no data word, and three
non-zero words (41_seeding.md R72, R74, marked there as derived; they rest on the finalizer of log 6). -/
def Obligations.InitAlwaysSeedsNonZero : Prop :=
  ∀ (seed : Word) (s : State), ∃ w : Triple, w.NonZero ∧
    exec (.init seed) s = .next { s with words := some w, outgoing := s.outgoing ++ [.status .ok] }

/-- On the engine as built, every seed but three gives the three words at positions 1, 2 and 3 of its splitter sequence
(41_seeding.md R71, its corner case (b), marked there as derived; the finalizer is log 6). -/
def Obligations.InitOfPlainSeedTakesFirstThreeWords : Prop :=
  ∀ (seed : Word) (s : State),
    seed ≠ 0x61c8864680b583eb → seed ≠ 0xc3910c8d016b07d6 → seed ≠ 0x255992d382208bc1 →
    exec (.init seed) s = .next
      { s with
        words := some ⟨finSM64 (seed + gr), finSM64 (seed + 2 * gr), finSM64 (seed + 3 * gr)⟩
        outgoing := s.outgoing ++ [.status .ok] }

/-- Different seeds give different streams at once: on the engine as built, two seeds for which the first draw is not zero
give different `fast_loop` words (42_stream_partitioner.md R77, marked there as derived; the finalizer is log 6). -/
def Obligations.DistinctSeedsGiveDistinctFastLoops : Prop :=
  ∀ (seed seed' : Word) (s : State), seed ≠ seed' →
    seed ≠ 0x61c8864680b583eb → seed' ≠ 0x61c8864680b583eb →
    ∃ (t u : State) (w v : Triple), exec (.init seed) s = .next t ∧ exec (.init seed') s = .next u ∧
      t.words = some w ∧ u.words = some v ∧ w.fastLoop ≠ v.fastLoop

/-- The default finalizer is a bijection and gives zero exactly at zero (41_seeding.md R69, marked there as derived; the
finalizer is log 6). -/
def Obligations.DefaultFinalizerHasNamedProperties : Prop :=
  engineConfig.FinBijective ∧ engineConfig.FinZero

/-- A finalizer with property FIN-zero never makes a non-zero draw fail, so that INIT is never answered InvalidSeed; with a
finalizer that is zero everywhere every INIT is (41_seeding.md R70, R74, 95_test_vectors.md section 2.3). -/
def Obligations.InvalidSeedNeedsDegenerateFinalizer : Prop :=
  (∀ cfg : Config, cfg.FinZero → ∀ (seed : Word) (s : State), ∃ w : Triple,
    initWith cfg seed s = { s with words := some w, outgoing := s.outgoing ++ [.status .ok] }) ∧
  (∀ cfg : Config, (∀ v : Word, cfg.fin v = 0) → ∀ (seed : Word) (s : State),
    initWith cfg seed s = { s with outgoing := s.outgoing ++ [.status (.fault .invalidSeed)] })

/-! ### The stream partitioner and INIT_STREAM -/

/-- INIT_STREAM with operands that are not valid answers InvalidStream, code 2, makes no draw whatever the finalizer, and
changes nothing (42_stream_partitioner.md R78, 60_exceptions.md R95). -/
def Obligations.InvalidStreamOperandsAreAnswered : Prop :=
  statusCode (.fault .invalidStream) = 2 ∧
  (∀ (seed i k : Word) (s : State),
    ¬ (1 ≤ k.toNat ∧ k.toNat ≤ 2 ^ 63 ∧ i.toNat < k.toNat) →
    exec (.initStream seed i k) s = .next
      { s with outgoing := s.outgoing ++ [.status (.fault .invalidStream)] }) ∧
  (∀ (cfg : Config) (seed i k : Word) (s : State),
    ¬ (1 ≤ k.toNat ∧ k.toNat ≤ 2 ^ 63 ∧ i.toNat < k.toNat) →
    initStreamWith cfg seed i k s =
      { s with outgoing := s.outgoing ++ [.status (.fault .invalidStream)] })

/-- INIT_STREAM with valid operands on the engine as built completes for every seed, in every state: status OK, the
`slow_loop` is exactly `1 + stream_index · floor(2^64 / stream_count)`, with no wrap, and no field is zero
(42_stream_partitioner.md R79, R81, R82 (a); that a draw never fails rests on the finalizer of log 6). -/
def Obligations.InitStreamSeedsNonZeroAtItsPlace : Prop :=
  ∀ (seed i k : Word) (s : State),
    1 ≤ k.toNat → k.toNat ≤ 2 ^ 63 → i.toNat < k.toNat →
    ∃ w : Triple, w.NonZero ∧ w.slowLoop.toNat = 1 + i.toNat * (2 ^ 64 / k.toNat) ∧
      exec (.initStream seed i k) s = .next
        { s with words := some w, outgoing := s.outgoing ++ [.status .ok] }

/-- INIT_STREAM with valid operands for every finalizer: `fast_loop` and `mix`, in this order, are the first two non-zero
words of the seed's splitter sequence from position 2 · stream_index + 1 on, as long as no two in a row are zero before the
second is found; otherwise it answers InvalidSeed and changes nothing (42_stream_partitioner.md R80, R81). -/
def Obligations.InitStreamTakesItsOwnWords : Prop :=
  ∀ (cfg : Config) (seed i k : Word) (s : State),
    1 ≤ k.toNat → k.toNat ≤ 2 ^ 63 → i.toNat < k.toNat →
    (∀ p1 p2 : Nat, (p1 = 1 ∨ p1 = 2) → (p2 = p1 + 1 ∨ p2 = p1 + 2) →
      (∀ j : Nat, 1 ≤ j → j ≤ p2 →
        (splitterWord cfg seed (2 * i.toNat + j) ≠ 0 ↔ j = p1 ∨ j = p2)) →
      initStreamWith cfg seed i k s =
        { s with
          words := some
            ⟨splitterWord cfg seed (2 * i.toNat + p1),
              BitVec.ofNat 64 (1 + i.toNat * (2 ^ 64 / k.toNat)),
              splitterWord cfg seed (2 * i.toNat + p2)⟩
          outgoing := s.outgoing ++ [.status .ok] }) ∧
    ((∀ p1 p2 : Nat, (p1 = 1 ∨ p1 = 2) → (p2 = p1 + 1 ∨ p2 = p1 + 2) →
      ¬ ∀ j : Nat, 1 ≤ j → j ≤ p2 →
        (splitterWord cfg seed (2 * i.toNat + j) ≠ 0 ↔ j = p1 ∨ j = p2)) →
      initStreamWith cfg seed i k s =
        { s with outgoing := s.outgoing ++ [.status (.fault .invalidSeed)] })

/-- The properties of a partition: for one seed and one count, the `slow_loop` words that INIT_STREAM gives to two different
indices are different, and consecutive ones lie exactly `floor(2^64 / k)` apart as integers, without wrap
(42_stream_partitioner.md R82 (b), (c), marked there as derived). That both commands complete rests on the finalizer of
log 6. -/
def Obligations.PartitionIsDistinctAndEvenlySpaced : Prop :=
  ∀ (seed i j k : Word) (s : State),
    1 ≤ k.toNat → k.toNat ≤ 2 ^ 63 → i.toNat < j.toNat → j.toNat < k.toNat →
    ∃ (t u : State) (w v : Triple),
      exec (.initStream seed i k) s = .next t ∧ exec (.initStream seed j k) s = .next u ∧
      t.words = some w ∧ u.words = some v ∧ w.slowLoop ≠ v.slowLoop ∧
      (j.toNat = i.toNat + 1 → v.slowLoop.toNat - w.slowLoop.toNat = 2 ^ 64 / k.toNat ∧
        w.slowLoop.toNat < v.slowLoop.toNat)

/-- Of a stream, `slow_loop` does not depend on the seed, and `fast_loop` and `mix` do not depend on the count
(42_stream_partitioner.md R82 (d), marked there as derived). That the registers hold the States so built rests on the finalizer
of log 6, with which no draw fails. -/
def Obligations.StreamWordsDependOnTheirOperandsOnly : Prop :=
  ∀ (seed seed' i k k' : Word) (s : State) (t u v : State) (x y z : Triple),
    exec (.initStream seed i k) s = .next t → exec (.initStream seed' i k) s = .next u →
    exec (.initStream seed i k') s = .next v →
    1 ≤ k.toNat → k.toNat ≤ 2 ^ 63 → i.toNat < k.toNat →
    1 ≤ k'.toNat → k'.toNat ≤ 2 ^ 63 → i.toNat < k'.toNat →
    t.words = some x → u.words = some y → v.words = some z →
    x.slowLoop = y.slowLoop ∧ x.fastLoop = z.fastLoop ∧ x.mix = z.mix

/-- Streams of one seed have their own splitter positions: for every bijective finalizer, streams of different index in which
no draw is zero share no `fast_loop` and no `mix` word (42_stream_partitioner.md R80, marked there as derived). -/
def Obligations.StreamsOfOneSeedShareNoWord : Prop :=
  ∀ (cfg : Config) (seed i j k : Word) (s : State), cfg.FinBijective →
    1 ≤ k.toNat → k.toNat ≤ 2 ^ 63 → i.toNat < k.toNat → j.toNat < k.toNat → i ≠ j →
    (∀ p : Nat, p = 1 ∨ p = 2 →
      splitterWord cfg seed (2 * i.toNat + p) ≠ 0 ∧ splitterWord cfg seed (2 * j.toNat + p) ≠ 0) →
    ∃ w v : Triple,
      (initStreamWith cfg seed i k s).words = some w ∧ (initStreamWith cfg seed j k s).words = some v ∧
      w.fastLoop ≠ v.fastLoop ∧ w.mix ≠ v.mix ∧ w.fastLoop ≠ v.mix ∧ w.mix ≠ v.fastLoop

/-- The wrap-around gap of a partition: from the last stream's `slow_loop` on to that of stream 0 of the next round it is
`floor(2^64 / k)` and the remainder of that division (42_stream_partitioner.md R83, marked there as derived). That both commands
complete rests on the finalizer of log 6. -/
def Obligations.WrapGapIsSpacingPlusRemainder : Prop :=
  ∀ (seed first last k : Word) (s : State),
    1 ≤ k.toNat → k.toNat ≤ 2 ^ 63 → first = 0 → last = k - 1 →
    ∃ (t u : State) (w v : Triple),
      exec (.initStream seed first k) s = .next t ∧ exec (.initStream seed last k) s = .next u ∧
      t.words = some w ∧ u.words = some v ∧ w.slowLoop = 1 ∧
      2 ^ 64 + w.slowLoop.toNat - v.slowLoop.toNat = 2 ^ 64 / k.toNat + 2 ^ 64 % k.toNat

/-! ### LOAD and READ -/

/-- LOAD: every word with opcode 5 is it, with the three fields as its operands; it writes the three words and sets `valid`,
answers OK with no data word, in every state and for every operand, and changes nothing else (43_state_access.md R87). -/
def Obligations.LoadSetsTheState : Prop :=
  (∀ w : CommandWord, w.op = 5 → decode w = .load w.a w.b w.c) ∧
  (∀ (s : State) (a b c : Word),
    exec (.load a b c) s = .next
      { s with words := some ⟨a, b, c⟩, outgoing := s.outgoing ++ [.status .ok] })

/-- READ: every word with opcode 6 is it; on a seeded engine it answers OK and the three words in the order `fast_loop`,
`slow_loop`, `mix`, and writes nothing; on an unseeded one it answers NotSeeded (43_state_access.md R88). -/
def Obligations.ReadObservesTheState : Prop :=
  (∀ w : CommandWord, w.op = 6 → decode w = .read) ∧
  (∀ (s : State) (f sl m : Word), s.words = some ⟨f, sl, m⟩ →
    exec .read s = .next
      { s with outgoing := s.outgoing ++ [.status .ok, .word f, .word sl, .word m] }) ∧
  (∀ s : State, s.words = none →
    exec .read s = .next { s with outgoing := s.outgoing ++ [.status (.fault .notSeeded)] })

/-- Save and restore: the words a READ delivers, loaded into any engine in any state, put its register into the same state,
and every NEXT_N from there delivers what it would have delivered (43_state_access.md R90, marked there as derived). -/
def Obligations.ReadThenLoadRestoresTheStream : Prop :=
  ∀ s u : State, s.valid = true →
    ∃ (t : State) (f sl m : Word),
      exec .read s = .next t ∧ dataWords (answered s t) = [f, sl, m] ∧
      ∃ v : State, exec (.load f sl m) u = .next v ∧ v.words = s.words ∧
        ∀ n : Word, ∃ s' v' : State, exec (.nextN n) s = .next s' ∧ exec (.nextN n) v = .next v' ∧
          answered s s' = answered v v' ∧ s'.words = v'.words

/-- A construction command does not depend on the state before it: the register after LOAD, INIT and INIT_STREAM with valid
operands is the same from any two states, and doing it twice is doing it once (20_memory.md R28, 41_seeding.md R75). For INIT
and INIT_STREAM it rests on the finalizer of log 6, with which no draw fails; INIT_STREAM with invalid operands, which changes
nothing, is InvalidStreamOperandsAreAnswered. -/
def Obligations.ConstructionForgetsTheStateBefore : Prop :=
  ∀ (i : Instr) (s t : State),
    ((∃ a b c : Word, i = .load a b c) ∨ (∃ seed : Word, i = .init seed) ∨
      ∃ seed idx k : Word, i = .initStream seed idx k ∧
        1 ≤ k.toNat ∧ k.toNat ≤ 2 ^ 63 ∧ idx.toNat < k.toNat) →
    ∃ s' t' s'' : State, exec i s = .next s' ∧ exec i t = .next t' ∧ exec i s' = .next s'' ∧
      s'.words = t'.words ∧ s''.words = s'.words

/-! ### Faults -/

/-- NEXT, NEXT_N for every count, and READ on an unseeded engine answer NotSeeded, code 3, with no data word and change
nothing (60_exceptions.md R94). -/
def Obligations.UnseededUseIsAnsweredNotSeeded : Prop :=
  statusCode (.fault .notSeeded) = 3 ∧
  ∀ (s : State) (i : Instr), s.words = none → (i = .next ∨ i = .read ∨ ∃ n : Word, i = .nextN n) →
    exec i s = .next { s with outgoing := s.outgoing ++ [.status (.fault .notSeeded)] }

/-- Every reserved opcode, as an instruction in any state, and as a command word with any operand fields presented to an idle
engine: IllegalCommand, code 4, no data word, no change (30_encoding.md R40, 60_exceptions.md R93). -/
def Obligations.ReservedOpcodesAreIllegalCommands : Prop :=
  statusCode (.fault .illegalCommand) = 4 ∧
  (∀ (s : State) (i : Instr),
    i ∈ [Instr.reserved0, .reserved7, .reserved8, .reserved9, .reservedA, .reservedB, .reservedC, .reservedD,
      .reservedE, .reservedF] →
    exec i s = .next { s with outgoing := s.outgoing ++ [.status (.fault .illegalCommand)] }) ∧
  (∀ (s : State) (w : CommandWord) (rest : List HostEvent),
    s.input = .command w :: rest → s.outgoing = [] → (w.op = 0 ∨ 7 ≤ w.op.toNat) →
    step s = .next { s with input := rest, outgoing := [.status (.fault .illegalCommand)] })

/-- What a fault does, for every command: if the status a command answers is a fault, there is no data word and the state is
exactly as before but for that one beat (60_exceptions.md R92). -/
def Obligations.FaultsChangeNothing : Prop :=
  ∀ (i : Instr) (s t : State) (f : CommandFault), exec i s = .next t →
    (answered s t).head? = some (.status (.fault f)) →
    t = { s with outgoing := s.outgoing ++ [.status (.fault f)] }

/-- The codes of the five statuses, and which command can answer which fault (60_exceptions.md R91). -/
def Obligations.StatusCodesAndWhoRaisesThem : Prop :=
  statusCode .ok = 0 ∧ statusCode (.fault .invalidSeed) = 1 ∧ statusCode (.fault .invalidStream) = 2 ∧
  statusCode (.fault .notSeeded) = 3 ∧ statusCode (.fault .illegalCommand) = 4 ∧
  ∀ (i : Instr) (s t : State) (f : CommandFault), exec i s = .next t →
    Beat.status (.fault f) ∈ answered s t →
    match f with
    | .invalidSeed => i.opcode = 1 ∨ i.opcode = 2
    | .invalidStream => i.opcode = 2
    | .notSeeded => s.valid = false ∧ (i.opcode = 3 ∨ i.opcode = 4 ∨ i.opcode = 6)
    | .illegalCommand => i.opcode = 0 ∨ 7 ≤ i.opcode.toNat

/-- Every command, legal or not, in every state, completes and is answered by exactly one response: one status and then the
number of data words fixed by the command and the status; and running it touches neither the host's moves nor what was
delivered (30_encoding.md R38). -/
def Obligations.EveryCommandAnswersOneResponse : Prop :=
  ∀ (i : Instr) (s : State), ∃ (t : State) (r : Response),
    exec i s = .next t ∧ t.outgoing = s.outgoing ++ .status r.status :: r.data.map Beat.word ∧
    t.input = s.input ∧ t.delivered = s.delivered ∧
    (r.status ≠ .ok → r.data = []) ∧
    (r.status = .ok →
      match i with
      | .init _ => r.data.length = 0
      | .initStream _ _ _ => r.data.length = 0
      | .next => r.data.length = 1
      | .nextN n => r.data.length = n.toNat
      | .load _ _ _ => r.data.length = 0
      | .read => r.data.length = 3
      | _ => False) ∧
    ((∃ a b c : Word, i = .load a b c) → r.status = .ok)

/-! ### The whole machine -/

/-- Who writes what, for every command and state: what a step of each command may leave different in the state register and in
`valid`; any pair not listed is never (10_state.md R23, R18). -/
def Obligations.OnlyListedWritesHappen : Prop :=
  ∀ (i : Instr) (s t : State), exec i s = .next t →
    (s.valid = true → t.valid = true) ∧
    (s.valid = false → t.valid = true → i.opcode = 1 ∨ i.opcode = 2 ∨ i.opcode = 5) ∧
    (t.words ≠ s.words → 1 ≤ i.opcode.toNat ∧ i.opcode.toNat ≤ 5) ∧
    (∀ w w' : Triple, s.words = some w → t.words = some w' → i = .next →
      w'.slowLoop ≠ w.slowLoop → w.fastLoop = 0) ∧
    (i = .nextN 0 → t.words = s.words) ∧
    (i.opcode = 1 ∨ i.opcode = 2 → t.words ≠ s.words → answered s t = [.status .ok])

/-- No hidden state: what a command answers, and the state register it leaves, depend on the command and the state register
alone, not on responses before, on the host's later moves or on anything else (10_state.md R21, 40_step.md R59). -/
def Obligations.CommandDependsOnRegisterAlone : Prop :=
  ∀ (i : Instr) (s t s' t' : State), s.words = t.words → exec i s = .next s' → exec i t = .next t' →
    s'.words = t'.words ∧ answered s s' = answered t t'

/-- Progress: a host that presents any command word to an idle engine and takes what it is offered has the whole response,
a status and then data words, after finitely many steps, at most one for the command and 2^64 for the beats, and the engine
is idle again (70_reset_and_hazards.md R118, R116). That a response is taken beat by beat is log 3, that NEXT_N is one
transition log 4. -/
def Obligations.EveryCommandCompletesForATakingHost : Prop :=
  ∀ (s : State) (w : CommandWord) (rest : List HostEvent), s.outgoing = [] →
    ∃ (n : Nat) (t : State) (st : Status) (vs : List Word),
      n = vs.length + 1 ∧ n ≤ 2 ^ 64 ∧
      run (n + 1) { s with input := .command w :: (takes n ++ rest) } = .next t ∧
      t.outgoing = [] ∧ t.input = rest ∧ t.delivered = s.delivered ++ .status st :: vs.map Beat.word

/-- Every step that answers a next state keeps the invariant: responses stay whole and in order, at most one is in flight and
of bounded length, no fault is followed by a data word, and undelivered data words exist only while the register holds a
value (30_encoding.md R38, 60_exceptions.md R92, 00_scope.md R12, 70_reset_and_hazards.md R105). -/
def Obligations.StepKeepsInterfaceInvariant : Prop :=
  ∀ s t : State, s.Inv → step s = .next t → t.Inv

/-- The invariant holds after reset (10_state.md R22, 70_reset_and_hazards.md R106). -/
def Obligations.ResetHasInterfaceInvariant : Prop :=
  State.reset.Inv
end

