-- ==== Sys2Proof/Laws/State.lean ====
section
/-! SUPPORT. One lemma for each field after each update of the state, so that no later proof unfolds a record update. -/

namespace Sys2Proof.Machine

@[simp] theorem State.reset_words : State.reset.words = none := rfl
@[simp] theorem State.reset_outgoing : State.reset.outgoing = [] := rfl
@[simp] theorem State.reset_input : State.reset.input = [] := rfl
@[simp] theorem State.reset_delivered : State.reset.delivered = [] := rfl

section
variable (s : State) (w : Triple)

@[simp] theorem State.construct_words : (s.construct w).words = some w := rfl
@[simp] theorem State.construct_outgoing : (s.construct w).outgoing = s.outgoing := rfl
@[simp] theorem State.construct_input : (s.construct w).input = s.input := rfl
@[simp] theorem State.construct_delivered : (s.construct w).delivered = s.delivered := rfl
end

section
variable (s : State) (r : Response)

@[simp] theorem respond_words : (respond r s).words = s.words := rfl
@[simp] theorem respond_outgoing : (respond r s).outgoing = s.outgoing ++ responseBeats r := rfl
@[simp] theorem respond_input : (respond r s).input = s.input := rfl
@[simp] theorem respond_delivered : (respond r s).delivered = s.delivered := rfl
end

section
variable (s : State) (f : CommandFault)

@[simp] theorem raise_words : (raise f s).words = s.words := rfl
@[simp] theorem raise_outgoing : (raise f s).outgoing = s.outgoing ++ [.status (.fault f)] := rfl
@[simp] theorem raise_input : (raise f s).input = s.input := rfl
@[simp] theorem raise_delivered : (raise f s).delivered = s.delivered := rfl
end

section
variable (s : State)

@[simp] theorem applyReset_words : (applyReset s).words = none := rfl
@[simp] theorem applyReset_outgoing : (applyReset s).outgoing = [] := rfl
@[simp] theorem applyReset_input : (applyReset s).input = s.input := rfl
@[simp] theorem applyReset_delivered : (applyReset s).delivered = s.delivered := rfl

@[simp] theorem takeBeat_words : (takeBeat s).words = s.words := by
  unfold takeBeat; split <;> rfl

@[simp] theorem takeBeat_input : (takeBeat s).input = s.input := by
  unfold takeBeat; split <;> rfl

@[simp] theorem takeBeat_outgoing : (takeBeat s).outgoing = s.outgoing.tail := by
  unfold takeBeat; split <;> simp_all

end

section
variable (w : CommandWord) (s : State)

@[simp] theorem presentNext_words : (presentNext w s).words = s.words := rfl
@[simp] theorem presentNext_outgoing : (presentNext w s).outgoing = [] := rfl
@[simp] theorem presentNext_input : (presentNext w s).input = .command w :: s.input := rfl
@[simp] theorem presentNext_delivered : (presentNext w s).delivered = s.delivered := rfl
end

/-- `valid` is read off the state register. -/
theorem valid_iff (s : State) : s.valid = true ↔ ∃ w, s.words = some w := by
  simp [State.valid, Option.isSome_iff_exists]

theorem not_valid_iff (s : State) : s.valid = false ↔ s.words = none := by
  simp [State.valid]

end Sys2Proof.Machine
end

