-- ==== Sys2Proof/Laws/Ops.lean ====
section
/-! SUPPORT. For each shared operation, once, everything it can do: the later proofs cite these and do not unfold the
operation. -/

namespace Sys2Proof.Machine

/-- Taking a beat never loses one: what was delivered and what is offered stay the same sequence. -/
theorem takeBeat_keeps_beats (s : State) :
    (takeBeat s).delivered ++ (takeBeat s).outgoing = s.delivered ++ s.outgoing := by
  unfold takeBeat; split <;> simp_all

/-- A rule behind the NotSeeded check: the fault, or the rule on the words the register holds. -/
theorem whenSeeded_spec (s : State) (rule : Triple → State) :
    (s.words = none ∧ whenSeeded s rule = .next (raise .notSeeded s)) ∨
    ∃ w, s.words = some w ∧ whenSeeded s rule = .next (rule w) := by
  unfold whenSeeded
  cases h : s.words with
  | none => exact .inl ⟨rfl, rfl⟩
  | some w => exact .inr ⟨w, rfl, rfl⟩

/-- The rule's own form when the register holds a value. -/
theorem whenSeeded_of_words (s : State) (rule : Triple → State) (w : Triple) (h : s.words = some w) :
    whenSeeded s rule = .next (rule w) := by
  unfold whenSeeded; rw [h]

/-- The fault when it holds none. -/
theorem whenSeeded_of_none (s : State) (rule : Triple → State) (h : s.words = none) :
    whenSeeded s rule = .next (raise .notSeeded s) := by
  unfold whenSeeded; rw [h]

/-- A construction command ends in InvalidSeed with nothing changed, or in OK with the built State. -/
theorem finishConstruction_spec (built : Option Triple) (s : State) :
    (built = none ∧ finishConstruction built s = raise .invalidSeed s) ∨
    ∃ w, built = some w ∧
      finishConstruction built s = respond { status := .ok, data := [] } (s.construct w) := by
  cases built with
  | none => exact .inl ⟨rfl, rfl⟩
  | some w => exact .inr ⟨w, rfl, rfl⟩

/-- Operand validity of INIT_STREAM, as numbers (R78). -/
theorem streamValid_iff (index count : Word) :
    streamValid index count = true ↔
      1 ≤ count.toNat ∧ count.toNat ≤ 2 ^ 63 ∧ index.toNat < count.toNat := by
  rw [streamValid, Bool.and_eq_true, Bool.and_eq_true, decide_eq_true_iff, decide_eq_true_iff, decide_eq_true_iff,
    and_assoc, streamCountMax]

/-- A word that `drawNz` hands out is not zero. -/
theorem drawNz_word_ne_zero {cfg : Config} {spl v spl' : Word} (h : drawNz cfg spl = some (v, spl')) : v ≠ 0 := by
  unfold drawNz at h
  simp only at h
  split at h
  · next h1 => cases Option.some.inj h; exact h1
  · split at h
    · next h2 => cases Option.some.inj h; exact h2
    · cases h

/-- What INIT built comes from three draws. -/
theorem initTriple_nonZero {cfg : Config} {seed : Word} {w : Triple} (h : initTriple cfg seed = some w) :
    w.NonZero := by
  unfold initTriple at h
  split at h
  · cases h
  · next hf =>
    split at h
    · cases h
    · next hs =>
      split at h
      · cases h
      · next hm =>
        cases Option.some.inj h
        exact ⟨drawNz_word_ne_zero hf, drawNz_word_ne_zero hs, drawNz_word_ne_zero hm⟩

/-- A list over the first `n + 1` numbers: its head, and the same over the first `n` shifted by one. -/
theorem map_range_succ {α : Type} (n : Nat) (f : Nat → α) :
    (List.range (n + 1)).map f = f 0 :: (List.range n).map fun k => f (k + 1) := by
  rw [List.range_succ_eq_map, List.map_cons, List.map_map]; rfl

/-- Any function with the equations of `stepMany` collects what `g` says along the iterates of `f`. It is stated for a
variable `f`: with `nxt` in its place the kernel can be led to compare a state with its successor, which unfolds the
64-bit arithmetic of both. -/
theorem collect_spec {α β : Type} (f : α → α) (g : α → β) (st : Nat → α → List β × α)
    (zero : ∀ w, st 0 w = ([], w))
    (succ : ∀ n w, st (n + 1) w = (g w :: (st n (f w)).1, (st n (f w)).2)) (n : Nat) (w : α) :
    st n w = ((List.range n).map fun k => g (f^[k] w), f^[n] w) := by
  induction n generalizing w with
  | zero => rw [zero]; rfl
  | succ n ih => rw [succ, map_range_succ, ih]; simp

/-- Everything `n` steps do: word `k` is the output of the k-th iterate, and the n-th iterate is left. -/
theorem stepMany_spec (n : Nat) (w : Triple) :
    stepMany n w = ((List.range n).map fun k => out (nxt^[k] w), nxt^[n] w) :=
  collect_spec nxt out stepMany (fun _ => rfl) (fun n w => by rw [stepMany]) n w

/-- `n` steps deliver `n` words. -/
@[simp] theorem stepMany_length (n : Nat) (w : Triple) : (stepMany n w).1.length = n := by
  rw [stepMany_spec]; simp

@[simp] theorem dataWords_append (xs ys : List Beat) : dataWords (xs ++ ys) = dataWords xs ++ dataWords ys := by
  induction xs with
  | nil => rfl
  | cons x xs ih => cases x <;> simp [dataWords, ih]

@[simp] theorem dataWords_map_word (vs : List Word) : dataWords (vs.map Beat.word) = vs := by
  induction vs with
  | nil => rfl
  | cons v vs ih => simp [dataWords, ih]

/-- What a step can do: hold the state, reset, hand a beat over, perform a command on an idle engine, or refuse one on a
busy engine. -/
theorem step_spec (s : State) :
    (s.input = [] ∧ step s = .next s) ∨
    (∃ rest, s.input = .reset :: rest ∧ step s = .next (applyReset { s with input := rest })) ∨
    (∃ rest, s.input = .take :: rest ∧ step s = .next (takeBeat { s with input := rest })) ∨
    (∃ w rest, s.input = .command w :: rest ∧ s.outgoing = [] ∧
      step s = exec (decode w) { s with input := rest }) ∨
    (∃ w rest, s.input = .command w :: rest ∧ s.outgoing ≠ [] ∧ step s = .refused .commandWhileBusy) := by
  rcases s with ⟨ws, out, inp, del⟩
  rcases inp with _ | ⟨e, rest⟩
  · exact .inl ⟨rfl, rfl⟩
  · rcases e with w | _ | _
    · rcases out with _ | ⟨x, xs⟩
      · exact .inr (.inr (.inr (.inl ⟨w, rest, rfl, rfl, rfl⟩)))
      · exact .inr (.inr (.inr (.inr ⟨w, rest, rfl, List.cons_ne_nil _ _, rfl⟩)))
    · exact .inr (.inr (.inl ⟨rest, rfl, rfl⟩))
    · exact .inr (.inl ⟨rest, rfl, rfl⟩)

end Sys2Proof.Machine
end

