-- ==== Sys2Proof/Laws/Exec.lean ====
section
/-! SUPPORT. Every command as a pure function of the command and the state register: what it answers and what it leaves in
the register. `exec_eq` says that this is all a command does; proofs about commands cite it and the equations of `answer`,
and unfold neither `exec` nor a meaning. The equations are proved without letting the kernel compare states by value, which
would unfold the 64-bit arithmetic of a draw or a step. -/

namespace Sys2Proof.Machine

/-- The end of a construction command: the built State, or InvalidSeed and the register as it was. -/
def built (b ws : Option Triple) : Response × Option Triple :=
  match b with
  | none => (⟨.fault .invalidSeed, []⟩, ws)
  | some w => (⟨.ok, []⟩, some w)

/-- The answer of a command behind the NotSeeded check. -/
def seeded (ws : Option Triple) (rule : Triple → Response × Option Triple) : Response × Option Triple :=
  match ws with
  | none => (⟨.fault .notSeeded, []⟩, none)
  | some w => rule w

/-- The answer of a reserved opcode. -/
def illegal (ws : Option Triple) : Response × Option Triple := (⟨.fault .illegalCommand, []⟩, ws)

/-- What each command answers and leaves in the state register. -/
def answer : Instr → Option Triple → Response × Option Triple
  | .init seed, ws => built (initTriple engineConfig seed) ws
  | .initStream seed i k, ws =>
    bif streamValid i k then built (streamTriple engineConfig seed i k) ws else (⟨.fault .invalidStream, []⟩, ws)
  | .next, ws => seeded ws fun w => (⟨.ok, [out w]⟩, some (nxt w))
  | .nextN n, ws => seeded ws fun w => (⟨.ok, (stepMany n.toNat w).1⟩, some (stepMany n.toNat w).2)
  | .load a b c, _ => (⟨.ok, []⟩, some ⟨a, b, c⟩)
  | .read, ws => seeded ws fun w => (⟨.ok, [w.fastLoop, w.slowLoop, w.mix]⟩, some w)
  | .reserved0, ws => illegal ws
  | .reserved7, ws => illegal ws
  | .reserved8, ws => illegal ws
  | .reserved9, ws => illegal ws
  | .reservedA, ws => illegal ws
  | .reservedB, ws => illegal ws
  | .reservedC, ws => illegal ws
  | .reservedD, ws => illegal ws
  | .reservedE, ws => illegal ws
  | .reservedF, ws => illegal ws

section
variable (ws : Option Triple) (w : Triple)

theorem built_none : built none ws = (⟨.fault .invalidSeed, []⟩, ws) := rfl
theorem built_some : built (some w) ws = (⟨.ok, []⟩, some w) := rfl

theorem answer_next_none : answer .next none = (⟨.fault .notSeeded, []⟩, none) := by delta answer; rfl
theorem answer_next_some : answer .next (some w) = (⟨.ok, [out w]⟩, some (nxt w)) := by delta answer; rfl
theorem answer_nextN_none (n : Word) : answer (.nextN n) none = (⟨.fault .notSeeded, []⟩, none) := by
  delta answer; rfl
theorem answer_nextN_some (n : Word) :
    answer (.nextN n) (some w) = (⟨.ok, (stepMany n.toNat w).1⟩, some (stepMany n.toNat w).2) := by
  delta answer; rfl
theorem answer_load (a b c : Word) : answer (.load a b c) ws = (⟨.ok, []⟩, some ⟨a, b, c⟩) := by delta answer; rfl
theorem answer_read_none : answer .read none = (⟨.fault .notSeeded, []⟩, none) := by delta answer; rfl
theorem answer_read_some : answer .read (some w) = (⟨.ok, [w.fastLoop, w.slowLoop, w.mix]⟩, some w) := by
  delta answer; rfl
theorem answer_init (seed : Word) : answer (.init seed) ws = built (initTriple engineConfig seed) ws := by
  delta answer; rfl
theorem answer_initStream (seed i k : Word) : answer (.initStream seed i k) ws =
    bif streamValid i k then built (streamTriple engineConfig seed i k) ws
    else (⟨.fault .invalidStream, []⟩, ws) := by
  delta answer; rfl

/-- INIT answers InvalidSeed and leaves the register, or OK and a State. -/
theorem answer_init_cases (seed : Word) :
    answer (.init seed) ws = (⟨.fault .invalidSeed, []⟩, ws) ∨ ∃ w, answer (.init seed) ws = (⟨.ok, []⟩, some w) := by
  rw [answer_init]
  cases initTriple engineConfig seed
  · exact .inl rfl
  · exact .inr ⟨_, rfl⟩

/-- INIT_STREAM answers InvalidStream or InvalidSeed and leaves the register, or OK and a State. -/
theorem answer_initStream_cases (seed i k : Word) :
    answer (.initStream seed i k) ws = (⟨.fault .invalidStream, []⟩, ws) ∨
    answer (.initStream seed i k) ws = (⟨.fault .invalidSeed, []⟩, ws) ∨
    ∃ w, answer (.initStream seed i k) ws = (⟨.ok, []⟩, some w) := by
  rw [answer_initStream]
  cases streamValid i k
  · exact .inl rfl
  · cases streamTriple engineConfig seed i k
    · exact .inr (.inl rfl)
    · exact .inr (.inr ⟨_, rfl⟩)

/-- Every reserved opcode answers IllegalCommand and leaves the register. -/
theorem answer_reserved (i : Instr) (h : i.opcode = 0 ∨ 7 ≤ i.opcode.toNat) :
    answer i ws = (⟨.fault .illegalCommand, []⟩, ws) := by
  cases i
  case init => exact absurd h (by simp [Instr.opcode])
  case initStream => exact absurd h (by simp [Instr.opcode])
  case next => exact absurd h (by simp [Instr.opcode])
  case nextN => exact absurd h (by simp [Instr.opcode])
  case load => exact absurd h (by simp [Instr.opcode])
  case read => exact absurd h (by simp [Instr.opcode])
  all_goals delta answer; rfl

end

theorem respond_construct (r : Response) (s : State) (w : Triple) :
    respond r (s.construct w) = { s with words := some w, outgoing := s.outgoing ++ responseBeats r } := by
  simp only [State.construct, respond]

theorem raise_eq (f : CommandFault) (s : State) :
    raise f s = { s with outgoing := s.outgoing ++ responseBeats ⟨.fault f, []⟩ } := by
  simp only [raise, respond]

/-- Everything a command does: it appends the beats of its answer to what is offered to the host, and puts the register the
answer names in place of the old one. -/
theorem exec_eq (i : Instr) (s : State) : exec i s = .next
    { s with words := (answer i s.words).2, outgoing := s.outgoing ++ responseBeats (answer i s.words).1 } := by
  have hraise : ∀ (f : CommandFault) (ws : Option Triple) (t : State), t.words = ws →
      (Host.Outcome.next (raise f t) : Result) =
        .next { t with words := ws, outgoing := t.outgoing ++ responseBeats ⟨.fault f, []⟩ } := by
    rintro f ws t rfl; rw [raise_eq]
  rcases s with ⟨ws, ou, inp, del⟩
  cases i with
  | init seed =>
    rw [answer_init, exec, execInit, initWith]
    cases initTriple engineConfig seed
    · exact hraise _ _ _ rfl
    · rw [finishConstruction, respond_construct, built_some]
  | initStream seed i k =>
    rw [answer_initStream, exec, execInitStream, initStreamWith]
    generalize streamTriple engineConfig seed i k = b
    cases streamValid i k
    · rw [if_neg Bool.false_ne_true, cond_false]; exact hraise _ _ _ rfl
    · rw [if_pos rfl, cond_true]
      cases b
      · exact hraise _ _ _ rfl
      · rw [finishConstruction, respond_construct, built_some]
  | next => rcases ws with _ | w <;> rfl
  | nextN n => rcases ws with _ | w <;> rfl
  | load a b c => rw [answer_load, exec, execLoad, respond_construct]
  | read => rcases ws with _ | w <;> rfl
  | reserved0 => exact hraise _ _ _ rfl
  | reserved7 => exact hraise _ _ _ rfl
  | reserved8 => exact hraise _ _ _ rfl
  | reserved9 => exact hraise _ _ _ rfl
  | reservedA => exact hraise _ _ _ rfl
  | reservedB => exact hraise _ _ _ rfl
  | reservedC => exact hraise _ _ _ rfl
  | reservedD => exact hraise _ _ _ rfl
  | reservedE => exact hraise _ _ _ rfl
  | reservedF => exact hraise _ _ _ rfl

/-- What a command appends is the beats of its answer. -/
theorem answered_eq (i : Instr) (s t : State) (h : exec i s = .next t) :
    answered s t = responseBeats (answer i s.words).1 := by
  rw [exec_eq] at h
  cases Host.Outcome.next.inj h
  simp [answered]

end Sys2Proof.Machine
end

