-- ==== Sys2Proof/Laws/PerInstr.lean ====
section
/-! SUPPORT. The encoding of each instruction, one lemma for each constructor: its opcode field is the one the opcode map
gives its mnemonic (30_encoding.md R37), and that field alone fixes which constructor the decoder answers (R39). -/

namespace Sys2Proof

/-- The opcode field of a word put together from its fields. -/
theorem commandWord_op (op : BitVec 4) (a b c : Word) : CommandWord.op (commandWord op a b c) = op := by
  apply BitVec.eq_of_toNat_eq
  have ha := a.isLt
  have hb := b.isLt
  have hc := c.isLt
  simp only [CommandWord.op, commandWord, BitVec.extractLsb'_toNat, BitVec.toNat_append,
    Nat.shiftLeft_eq, Nat.shiftRight_eq_div_pow]
  have ho := op.isLt
  have h1 : (op.toNat * 2 ^ 64 ||| a.toNat) = op.toNat * 2 ^ 64 + a.toNat := by
    rw [Nat.mul_comm, Nat.two_pow_add_eq_or_of_lt ha]
  rw [h1]
  have h2 : ((op.toNat * 2 ^ 64 + a.toNat) * 2 ^ 64 ||| b.toNat) = (op.toNat * 2 ^ 64 + a.toNat) * 2 ^ 64 + b.toNat := by
    rw [Nat.mul_comm, Nat.two_pow_add_eq_or_of_lt hb]
  rw [h2]
  have h3 : (((op.toNat * 2 ^ 64 + a.toNat) * 2 ^ 64 + b.toNat) * 2 ^ 64 ||| c.toNat) =
      ((op.toNat * 2 ^ 64 + a.toNat) * 2 ^ 64 + b.toNat) * 2 ^ 64 + c.toNat := by
    rw [Nat.mul_comm, Nat.two_pow_add_eq_or_of_lt hc]
  rw [h3]
  omega

namespace Laws.Encoding

/-- The encoding of a command carries its opcode, and so decodes to a command of that opcode. -/
def Statement (i : Instr) : Prop :=
  (encode i).op = i.opcode ∧ (decode (encode i)).opcode = i.opcode

/-- Both halves, from the word's fields. -/
theorem of_commandWord (i : Instr) (op : BitVec 4) (a b c : Word) (he : encode i = commandWord op a b c)
    (ho : i.opcode = op) (hd : ∀ w : CommandWord, w.op = op → (decode w).opcode = op) : Statement i := by
  have h : (encode i).op = op := by rw [he]; exact commandWord_op op a b c
  exact ⟨h.trans ho.symm, (hd _ h).trans ho.symm⟩

theorem init (seed : Word) : Statement (.init seed) :=
  of_commandWord _ 0x1#4 _ _ _ rfl rfl fun w h => by simp [decode, h, Instr.opcode]

theorem initStream (seed i k : Word) : Statement (.initStream seed i k) :=
  of_commandWord _ 0x2#4 _ _ _ rfl rfl fun w h => by simp [decode, h, Instr.opcode]

theorem next : Statement (.next) :=
  of_commandWord _ 0x3#4 _ _ _ rfl rfl fun w h => by simp [decode, h, Instr.opcode]

theorem nextN (n : Word) : Statement (.nextN n) :=
  of_commandWord _ 0x4#4 _ _ _ rfl rfl fun w h => by simp [decode, h, Instr.opcode]

theorem load (f s m : Word) : Statement (.load f s m) :=
  of_commandWord _ 0x5#4 _ _ _ rfl rfl fun w h => by simp [decode, h, Instr.opcode]

theorem read : Statement (.read) :=
  of_commandWord _ 0x6#4 _ _ _ rfl rfl fun w h => by simp [decode, h, Instr.opcode]

theorem reserved0 : Statement (.reserved0) :=
  of_commandWord _ 0x0#4 _ _ _ rfl rfl fun w h => by simp [decode, h, Instr.opcode]

theorem reserved7 : Statement (.reserved7) :=
  of_commandWord _ 0x7#4 _ _ _ rfl rfl fun w h => by simp [decode, h, Instr.opcode]

theorem reserved8 : Statement (.reserved8) :=
  of_commandWord _ 0x8#4 _ _ _ rfl rfl fun w h => by simp [decode, h, Instr.opcode]

theorem reserved9 : Statement (.reserved9) :=
  of_commandWord _ 0x9#4 _ _ _ rfl rfl fun w h => by simp [decode, h, Instr.opcode]

theorem reservedA : Statement (.reservedA) :=
  of_commandWord _ 0xA#4 _ _ _ rfl rfl fun w h => by simp [decode, h, Instr.opcode]

theorem reservedB : Statement (.reservedB) :=
  of_commandWord _ 0xB#4 _ _ _ rfl rfl fun w h => by simp [decode, h, Instr.opcode]

theorem reservedC : Statement (.reservedC) :=
  of_commandWord _ 0xC#4 _ _ _ rfl rfl fun w h => by simp [decode, h, Instr.opcode]

theorem reservedD : Statement (.reservedD) :=
  of_commandWord _ 0xD#4 _ _ _ rfl rfl fun w h => by simp [decode, h, Instr.opcode]

theorem reservedE : Statement (.reservedE) :=
  of_commandWord _ 0xE#4 _ _ _ rfl rfl fun w h => by simp [decode, h, Instr.opcode]

theorem reservedF : Statement (.reservedF) :=
  of_commandWord _ 0xF#4 _ _ _ rfl rfl fun w h => by simp [decode, h, Instr.opcode]

end Laws.Encoding

end Sys2Proof
end

