-- ==== Sys2Proof/Laws/Stepping.lean ====
section
/-! SUPPORT. The small lemmas of the step function: its two branches written out, its fields, and rotation as arithmetic on
numbers. Cite these; a proof that unfolds `nxt` beside one of its iterates can send the kernel into the 64-bit arithmetic. -/

namespace Sys2Proof.Machine

/-- The branch of R55 taken from `fast_loop = 0`. -/
theorem nxt_of_zero (s m : Word) :
    nxt { fastLoop := 0, slowLoop := s, mix := m } =
      { fastLoop := gr, slowLoop := s + gr, mix := rotl (m ^^^ (s + gr)) 59 } := by
  simp [nxt, rotMix, rotFast, rotl]

/-- The branch of R55 taken otherwise. -/
theorem nxt_of_ne_zero (f s m : Word) (h : f ≠ 0) :
    nxt { fastLoop := f, slowLoop := s, mix := m } =
      { fastLoop := rotl f 47 + gr, slowLoop := s, mix := rotl m 59 + f } := by
  simp only [nxt, rotMix, rotFast, if_neg h]

theorem nxt_fastLoop (w : Triple) : (nxt w).fastLoop = rotl w.fastLoop 47 + gr := rfl

theorem nxt_slowLoop (w : Triple) :
    (nxt w).slowLoop = if w.fastLoop = 0 then w.slowLoop + gr else w.slowLoop := rfl

theorem nxt_mix_of_ne_zero (w : Triple) (h : w.fastLoop ≠ 0) : (nxt w).mix = rotl w.mix 59 + w.fastLoop := by
  simp only [nxt, rotMix, if_neg h]

/-- Rotation of a number below 2^64: the low `64 - k` bits move up and the high `k` bits come in below. -/
theorem rotl_toNat (x : Word) (k : Nat) (h : k ≤ 64) :
    (rotl x k).toNat = 2 ^ k * (x.toNat % 2 ^ (64 - k)) + x.toNat / 2 ^ (64 - k) := by
  unfold rotl
  have e : (2 : Nat) ^ 64 = 2 ^ (64 - k) * 2 ^ k := by rw [← Nat.pow_add]; congr 1; omega
  have lt : x.toNat / 2 ^ (64 - k) < 2 ^ k := by
    rw [Nat.div_lt_iff_lt_mul (Nat.two_pow_pos _), Nat.mul_comm, ← e]; exact x.isLt
  rw [BitVec.toNat_or, BitVec.toNat_shiftLeft, BitVec.toNat_ushiftRight, Nat.shiftLeft_eq, Nat.shiftRight_eq_div_pow,
    e, Nat.mul_mod_mul_right, Nat.mul_comm, ← Nat.two_pow_add_eq_or_of_lt lt]

end Sys2Proof.Machine
end

