-- ==== Sys2Proof/Tests/Slice0.lean ====
section
/-! SUPPORT. Tests: command words written out in the spec and what they decode to, one or two steps of each command with the
results of 95_test_vectors.md, and for each statement with hypotheses a concrete state and operands that meet them. -/

namespace Sys2Proof.Tests

open Sys2Proof Sys2Proof.Machine

/-- An idle engine with this register, whose host does this next. -/
def idle (words : Option Triple) (input : List HostEvent) : State :=
  { words := words, outgoing := [], input := input, delivered := [] }

/-- The state register and the offered beats a command leaves, if it answers a next state. -/
def after : Result → Option (Option Triple × List Beat)
  | .next t => some (t.words, t.outgoing)
  | .fault _ => none
  | .refused _ => none

/-- An engine still offering one beat. -/
def busy (words : Option Triple) (x : Beat) (input : List HostEvent) : State :=
  { words := words, outgoing := [x], input := input, delivered := [.status .ok] }

/-- The largest word, `M` of 95_test_vectors.md. -/
def m64 : Word := 0xffffffffffffffff#64

/-! ### Decoding: words printed in 30_encoding.md R46 and 95_test_vectors.md sections 2.7 and 2.8 -/

/-- Section 2.8, `INIT 0xdeadbeefcafef00d`. -/
theorem test_decode_init :
    decode 0x1deadbeefcafef00d00000000000000000000000000000000#196 = .init 0xdeadbeefcafef00d := by decide

/-- Section 2.8, the largest count and index. -/
theorem test_decode_initStream :
    decode 0x200000000000000057fffffffffffffff8000000000000000#196 =
      .initStream 5 0x7fffffffffffffff 0x8000000000000000 := by decide

/-- Section 2.8, with non-zero ignored fields. -/
theorem test_decode_next :
    decode 0x3000000000000000100000000000000020000000000000003#196 = .next := by decide

/-- Section 2.8, `NEXT_N 0xffffffffffffffff`. -/
theorem test_decode_nextN :
    decode 0x4ffffffffffffffff00000000000000000000000000000000#196 = .nextN 0xffffffffffffffff := by decide

/-- Section 2.8, `LOAD X, 0x1111111111111111, MX`. -/
theorem test_decode_load :
    decode 0x55050a1e1d03b643211111111111111118cb65486003d4ea7#196 =
      .load 0x5050a1e1d03b6432 0x1111111111111111 0x8cb65486003d4ea7 := by decide

/-- Section 2.8, `READ` with every ignored bit set. -/
theorem test_decode_read :
    decode 0x6ffffffffffffffffffffffffffffffffffffffffffffffff#196 = .read := by decide

/-- R37 and R40: each reserved opcode; `0x0`, `0x7`, `0x9` and `0xF` are printed in section 2.7. -/
theorem test_decode_reserved :
    decode 0x0000000000000000000000000000000000000000000000000#196 = .reserved0 ∧
    decode 0x7000000000000000500000000000000050000000000000005#196 = .reserved7 ∧
    decode 0x8000000000000000000000000000000000000000000000000#196 = .reserved8 ∧
    decode 0x9000000000000000100000000000000020000000000000003#196 = .reserved9 ∧
    decode 0xa000000000000000000000000000000000000000000000000#196 = .reservedA ∧
    decode 0xb000000000000000000000000000000000000000000000000#196 = .reservedB ∧
    decode 0xc000000000000000000000000000000000000000000000000#196 = .reservedC ∧
    decode 0xd000000000000000000000000000000000000000000000000#196 = .reservedD ∧
    decode 0xe000000000000000000000000000000000000000000000000#196 = .reservedE ∧
    decode 0xfffffffffffffffffffffffffffffffffffffffffffffffff#196 = .reservedF := by decide

/-- Encoding gives the printed word (R46, `INIT_STREAM 42, 1, 4`). -/
theorem test_encode_initStream :
    encode (.initStream 42 1 4) = 0x2000000000000002a00000000000000010000000000000004#196 := by decide

/-- The one check on words: a word with a bit in a field its command ignores is not in the encoder's form, whichever of the
ignored fields holds it; a field the command reads may hold anything (R41; log 17 for the
reserved word). No term of `Instr` is ill formed (R36). -/
theorem test_canonical_smoke :
    CommandWord.canonical 0x1000000000000000700000000000000010000000000000000#196 = false ∧
    CommandWord.canonical 0x1000000000000000700000000000000000000000000000001#196 = false ∧
    CommandWord.canonical 0x3000000000000000100000000000000000000000000000000#196 = false ∧
    CommandWord.canonical 0x4000000000000000300000000000000000000000000000001#196 = false ∧
    CommandWord.canonical 0x6000000000000000000000000000000010000000000000000#196 = false ∧
    CommandWord.canonical 0xf000000000000000100000000000000000000000000000000#196 = false ∧
    CommandWord.canonical 0x5ffffffffffffffffffffffffffffffffffffffffffffffff#196 = true := by decide

/-- Every constructor is well formed, whatever its operands. -/
theorem test_wellFormed_smoke :
    (Instr.initStream m64 m64 0).wellFormed = true ∧ (Instr.nextN 0).wellFormed = true ∧
    Instr.reserved0.wellFormed = true := by decide

/-- A word has 196 bits and no more (R35, R43). -/
theorem test_decodeTableWord :
    decodeTableWord 200 (0x3 * 2 ^ 192) = some .next ∧ decodeTableWord 200 (2 ^ 196) = none := by decide

/-- After reset, the very next step performs the word placed. -/
theorem test_withFetchWord :
    after (step (State.reset.withFetchWord 200 (0x5 * 2 ^ 192 + 1 * 2 ^ 128 + 2 * 2 ^ 64 + 3))) =
      some (some ⟨1, 2, 3⟩, [.status .ok]) := by decide

/-! ### One step of each command -/

/-- Section 2.1. -/
theorem test_rotl :
    rotl 0x0123456789abcdef 47 = 0xe6f78091a2b3c4d5 ∧ rotl 0x0123456789abcdef 59 = 0x78091a2b3c4d5e6f ∧
    rotl 0x8000000000000000 1 = 1 := by decide

/-- Section 2.3. -/
theorem test_finSM64 :
    finSM64 1 = 0x5692161d100b05e5 ∧ finSM64 0xffffffffffffffff = 0xb4d055fcf2cbbd7b := by decide

/-- Section 2.4, seed `0xdeadbeefcafef00d`. -/
theorem test_init :
    after (exec (.init 0xdeadbeefcafef00d) State.reset) =
      some (some ⟨0x901d4f652fb472cb, 0xa7ce246440f74527, 0x19b40bbbb9380d34⟩, [.status .ok]) := by decide

/-- Section 2.4, seed `2^64 - 2·GR`: the second draw is zero and is redrawn. -/
theorem test_init_redraw :
    after (exec (.init 0xc3910c8d016b07d6) (idle (some ⟨1, 2, 3⟩) [])) =
      some (some ⟨0x336503c6b835bec0, 0xe220a8397b1dcdaf, 0x6e789e6aa1b965f4⟩, [.status .ok]) := by decide

/-- Section 2.5, the largest count and the last index. -/
theorem test_initStream :
    after (exec (.initStream 5 0x7fffffffffffffff 0x8000000000000000) State.reset) =
      some (some ⟨0xe9fe8a0a9a8306d3, 0xffffffffffffffff, 0xb6bf613dbebb45dc⟩, [.status .ok]) := by decide

/-- Section 2.7, `INIT_STREAM 9, 0, 0x8000000000000001` from `(1, 2, 3)`. -/
theorem test_initStream_invalid :
    after (exec (.initStream 9 0 0x8000000000000001) (idle (some ⟨1, 2, 3⟩) [])) =
      some (some ⟨1, 2, 3⟩, [.status (.fault .invalidStream)]) := by decide

/-- Section 2.2, S3: the slow path. -/
theorem test_next_slow :
    after (exec .next (idle (some ⟨0, 5, 7⟩) [])) =
      some (some ⟨0x9e3779b97f4a7c15, 0x9e3779b97f4a7c1a, 0xecf1bbcdcbfa53e0⟩,
        [.status .ok, .word 0x538454127b096493]) := by decide

/-- Section 2.2, S9: the fast path. -/
theorem test_next_fast :
    after (exec .next (idle (some ⟨0x0123456789abcdef, 0xfedcba9876543210, 0x0f1e2d3c4b5a6978⟩) [])) =
      some (some ⟨0x852efa4b21fe40ea, 0xfedcba9876543210, 0xc19c36d16c06a13a⟩,
        [.status .ok, .word 0xcdbe2456991e6f73]) := by decide

/-- Program P2 in its bulk form. -/
theorem test_nextN :
    after (exec (.nextN 3) (idle (some ⟨0, 0, 0⟩) [])) =
      some (some ⟨0x3c14e7daa3b51a28, 0x9e3779b97f4a7c15, 0x815f4111fb948e2f⟩,
        [.status .ok, .word 0, .word 0x8669e6aa2931bb19, .word 0xec3a8af28309a306]) := by decide

/-- Section 2.7, `NEXT_N 0` after reset and from `(1, 2, 3)`. -/
theorem test_nextN_zero :
    after (exec (.nextN 0) State.reset) = some (none, [.status (.fault .notSeeded)]) ∧
    after (exec (.nextN 0) (idle (some ⟨1, 2, 3⟩) [])) = some (some ⟨1, 2, 3⟩, [.status .ok]) := by decide

/-- Section 2.6, `LOAD 0, 0, 0` over a State. -/
theorem test_load :
    after (exec (.load 0 0 0) (idle (some ⟨1, 2, 3⟩) [])) = some (some ⟨0, 0, 0⟩, [.status .ok]) := by decide

/-- Section 2.6. -/
theorem test_read :
    after (exec .read (idle (some ⟨1, 2, 3⟩) [])) =
      some (some ⟨1, 2, 3⟩, [.status .ok, .word 1, .word 2, .word 3]) ∧
    after (exec .read State.reset) = some (none, [.status (.fault .notSeeded)]) := by decide

/-- Section 2.7: every reserved opcode, seeded or not. -/
theorem test_reserved :
    ∀ i ∈ [Instr.reserved0, .reserved7, .reserved8, .reserved9, .reservedA, .reservedB, .reservedC, .reservedD,
        .reservedE, .reservedF],
      after (exec i State.reset) = some (none, [.status (.fault .illegalCommand)]) ∧
      after (exec i (idle (some ⟨1, 2, 3⟩) [])) = some (some ⟨1, 2, 3⟩, [.status (.fault .illegalCommand)]) := by
  decide

/-- 70_reset_and_hazards.md R105: reset of a busy, seeded engine. -/
theorem test_reset :
    after (step (busy (some ⟨1, 2, 3⟩) (.word 7) [.reset])) = some (none, []) := by decide

/-- 00_scope.md R12: a beat is taken. -/
theorem test_take :
    after (step (busy (some ⟨1, 2, 3⟩) (.word 7) [.take])) = some (some ⟨1, 2, 3⟩, []) := by decide

/-- 70_reset_and_hazards.md R115: no next state for a command presented while one is in progress. -/
theorem test_busy :
    after (step (busy (some ⟨1, 2, 3⟩) (.word 7) [.command (encode .next)])) = none := by decide

/-- Section 2.3: with a finalizer that is zero everywhere INIT answers InvalidSeed and changes nothing. -/
theorem test_init_degenerate :
    initWith { fin := fun _ => 0 } 1 (idle (some ⟨1, 2, 3⟩) []) =
      { idle (some ⟨1, 2, 3⟩) [] with outgoing := [.status (.fault .invalidSeed)] } := by decide

/-- Section 2.2, predecessor checks. -/
theorem test_predecessor :
    predecessor ⟨0, 0, 0⟩ = ⟨0x0c8d016b07d6c391, 0, 0x6e5fd29f05278dfe⟩ ∧
    predecessor ⟨0x9e3779b97f4a7c15, 0, 0⟩ = ⟨0, 0x61c8864680b583eb, 0⟩ := by decide

/-! ### Witnesses: for each statement with hypotheses, inputs that meet them all -/

/-- StepPerformsPresentedCommand. -/
theorem witness_StepPerformsPresentedCommand :
    (idle none [.command (encode .next), .take]).input = .command (encode .next) :: [.take] ∧
    (idle none [.command (encode .next), .take]).outgoing = [] := by decide

/-- FetchedTableWordRunsItsCommand and DecodeOfEncodeIsIdentity. -/
theorem witness_wellFormed : (Instr.initStream m64 0 m64).wellFormed = true := by decide

/-- IdleHostHoldsState. -/
theorem witness_IdleHostHoldsState : (busy (some ⟨1, 2, 3⟩) (.word 7) []).input = [] := by decide

/-- CommandWhileBusyIsRefused. -/
theorem witness_CommandWhileBusyIsRefused :
    (busy none (.status .ok) [.command 0]).input = .command 0 :: [] ∧
    (busy none (.status .ok) [.command 0]).outgoing = .status .ok :: [] := by decide

/-- TakeDeliversBeatsInOrder: with a beat offered, and with none. -/
theorem witness_TakeDeliversBeatsInOrder :
    ((busy none (.word 5) [.take]).input = .take :: [] ∧ (busy none (.word 5) [.take]).outgoing = .word 5 :: []) ∧
    ((idle none [.take]).input = .take :: [] ∧ (idle none [.take]).outgoing = []) := by decide

/-- ResetAndOnlyResetUnseedsAndAbandons: a reset in the middle of a response, and a step that is no reset. -/
theorem witness_ResetAndOnlyResetUnseedsAndAbandons :
    (busy (some ⟨1, 2, 3⟩) (.word 7) [.reset]).input = .reset :: [] ∧
    ∃ t, step (busy (some ⟨1, 2, 3⟩) (.word 7) [.take]) = .next t ∧
      (busy (some ⟨1, 2, 3⟩) (.word 7) [.take]).input.head? ≠ some .reset ∧
      (busy (some ⟨1, 2, 3⟩) (.word 7) [.take]).valid = true :=
  ⟨rfl, _, rfl, by decide, rfl⟩

/-- ResetDuringBulkLeavesCorrectPrefix: no beat taken, all taken, and a count of zero. -/
theorem witness_ResetDuringBulkLeavesCorrectPrefix :
    ∀ p ∈ [((2 : Word), 0), (2, 3), (0, 0), (0, 1)],
      (idle (some ⟨1, 2, 3⟩) (.command (encode (.nextN p.1)) :: (takes p.2 ++ .reset :: []))).words = some ⟨1, 2, 3⟩ ∧
      (idle (some ⟨1, 2, 3⟩) (.command (encode (.nextN p.1)) :: (takes p.2 ++ .reset :: []))).outgoing = [] ∧
      p.2 ≤ p.1.toNat + 1 ∧
      (idle (some ⟨1, 2, 3⟩) (.command (encode (.nextN p.1)) :: (takes p.2 ++ .reset :: []))).input =
        .command (encode (.nextN p.1)) :: (takes p.2 ++ .reset :: []) := by decide

/-- ResetStateUnseededAndIdle: each of the three commands. -/
theorem witness_ResetStateUnseededAndIdle :
    (Instr.next = .next ∨ Instr.next = .read ∨ ∃ n : Word, Instr.next = .nextN n) ∧
    (Instr.read = .next ∨ Instr.read = .read ∨ ∃ n : Word, Instr.read = .nextN n) ∧
    (Instr.nextN 0 = .next ∨ Instr.nextN 0 = .read ∨ ∃ n : Word, Instr.nextN 0 = .nextN n) :=
  ⟨.inl rfl, .inr (.inl rfl), .inr (.inr ⟨0, rfl⟩)⟩

/-- TableWordsAreCommandWords: on either side of the bound, and at the ends. -/
theorem witness_TableWordsAreCommandWords :
    (2 ^ 196 - 1 < 2 ^ 200 ∧ 2 ^ 196 - 1 < 2 ^ 196) ∧ (2 ^ 196 < 2 ^ 200 ∧ 2 ^ 196 ≤ 2 ^ 196) ∧
    (2 ^ 200 - 1 < 2 ^ 200 ∧ 2 ^ 196 ≤ 2 ^ 200 - 1) := by decide

/-- NextDeliversOutputAndSteps, UnseededUseIsAnsweredNotSeeded, SlowLoopCountsZeroSteps, BulkNextDeliversEveryOutput and
ReadObservesTheState: the opcodes, an unseeded engine, and a seeded one on each path of the step. -/
theorem witness_NextDeliversOutputAndSteps :
    CommandWord.op 0x3ffffffffffffffffffffffffffffffffffffffffffffffff#196 = 3 ∧
    CommandWord.op 0x6ffffffffffffffffffffffffffffffffffffffffffffffff#196 = 6 ∧
    CommandWord.op 0x5ffffffffffffffffffffffffffffffffffffffffffffffff#196 = 5 ∧
    (idle none []).words = none ∧ (idle (some ⟨0, 5, 7⟩) []).words = some ⟨0, 5, 7⟩ ∧
    (idle (some ⟨m64, 2, 3⟩) []).words = some ⟨m64, 2, 3⟩ := by decide

/-- BulkNextEqualsSingleNexts: an idle engine; counts whose sum is the largest count. -/
theorem witness_BulkNextEqualsSingleNexts :
    (idle none []).outgoing = [] ∧ (0 : Word).toNat + m64.toNat < 2 ^ 64 ∧
    (0x8000000000000000 : Word).toNat + (0x7fffffffffffffff : Word).toNat < 2 ^ 64 := by decide

/-- AnyMixOfNextsDeliversOneSequence: both commands, and an engine that holds a value. -/
theorem witness_AnyMixOfNextsDeliversOneSequence :
    (∀ i ∈ [Instr.nextN 0, .next, .nextN 0xffffffffffffffff], i = .next ∨ ∃ n : Word, i = .nextN n) ∧
    (idle (some ⟨0, m64, 1⟩) []).words = some ⟨0, m64, 1⟩ := by
  refine ⟨fun i h => ?_, rfl⟩
  simp only [List.mem_cons, List.not_mem_nil, or_false] at h
  rcases h with rfl | rfl | rfl
  · exact .inr ⟨_, rfl⟩
  · exact .inl rfl
  · exact .inr ⟨_, rfl⟩

/-- FixedStatesAreExactlyThese: a fixed state (S7) and one that only keeps its `fast_loop` (S8). -/
theorem witness_FixedStatesAreExactlyThese :
    after (exec .next (idle (some ⟨fixedFast, 0x1111111111111111, fixedMix⟩) [])) =
      some (some ⟨fixedFast, 0x1111111111111111, fixedMix⟩, [.status .ok, .word 0x49bb72ecea41c7cd]) ∧
    after (exec .next (idle (some ⟨fixedFast, 0, 0⟩) [])) =
      some (some ⟨fixedFast, 0, fixedFast⟩, [.status .ok, .word 0x669f5a649ddb701a]) := by decide

/-- FixedStateOutputIsConstant and FixedFastLoopStaysForEver. -/
theorem witness_FixedStateOutputIsConstant :
    (idle (some ⟨fixedFast, m64, fixedMix⟩) []).words = some ⟨fixedFast, m64, fixedMix⟩ := by decide

/-- ZeroStateIsNotFixed. -/
theorem witness_ZeroStateIsNotFixed : (idle (some ⟨0, 0, 0⟩) []).words = some ⟨0, 0, 0⟩ := by decide

/-- SlowLoopReachesNoOutputBeforeSlowStep: two states apart in `slow_loop` alone, taken two steps with the slow step as the
last of them (S14), and taken one step that is slow itself, where the last premise has nothing to exclude. -/
theorem witness_SlowLoopReachesNoOutputBeforeSlowStep :
    ((idle (some ⟨0x0c8d016b07d6c391, 7, 9⟩) []).words = some ⟨0x0c8d016b07d6c391, 7, 9⟩ ∧
      (idle (some ⟨0x0c8d016b07d6c391, 8, 9⟩) []).words = some ⟨0x0c8d016b07d6c391, 8, 9⟩ ∧
      ∀ k : Nat, k + 1 < (2 : Word).toNat → (nxt^[k] ⟨0x0c8d016b07d6c391, 7, 9⟩).fastLoop ≠ 0) ∧
    ∀ k : Nat, k + 1 < (1 : Word).toNat → (nxt^[k] ⟨0, 7, 9⟩).fastLoop ≠ 0 := by
  refine ⟨⟨rfl, rfl, fun k h => ?_⟩, fun k h => absurd h (by simp)⟩
  have h0 : k = 0 := by
    have h2 : k + 1 < 2 := h
    omega
  subst h0
  show (0x0c8d016b07d6c391#64 : Word) ≠ 0
  decide

/-- RotationBitsAndRoundTrip: the ends of both ranges. -/
theorem witness_RotationBitsAndRoundTrip :
    (1 ≤ 1 ∧ 1 ≤ 63) ∧ (1 ≤ 63 ∧ 63 ≤ 63) ∧ 0 < 64 ∧ 63 < 64 := by decide

/-- A finalizer that is zero everywhere. -/
def zeroConfig : Config := { fin := fun _ => 0 }

/-- A finalizer that gives its argument back: a bijection that is zero exactly at zero. -/
def plainConfig : Config := { fin := fun v => v }

/-- A finalizer that is zero at every odd position of seed 0. -/
def evenConfig : Config :=
  { fin := fun v => if v = 2 * gr ∨ v = 4 * gr ∨ v = 6 * gr then v else 0 }

/-- NonZeroDrawTriesTwoPositions: each clause. -/
theorem witness_NonZeroDrawTriesTwoPositions :
    engineConfig.fin (0 + gr) ≠ 0 ∧
    (engineConfig.fin (0x61c8864680b583eb + gr) = 0 ∧ engineConfig.fin (0x61c8864680b583eb + gr + gr) ≠ 0) ∧
    (zeroConfig.fin (0 + gr) = 0 ∧ zeroConfig.fin (0 + gr + gr) = 0) := by decide

/-- A bounded check of a premise about positions 1 to `p`. -/
theorem positions_of_bounded {P : Nat → Prop} (p : Nat) (h : ∀ j ∈ List.range p, P (j + 1)) :
    ∀ j : Nat, 1 ≤ j → j ≤ p → P j := by
  intro j h1 h2
  have := h (j - 1) (List.mem_range.2 (by omega))
  rwa [Nat.sub_add_cancel h1] at this

/-- InitTakesFirstNonZeroWords, first clause: no redraw (seed 0), and a redraw for every field. -/
theorem witness_InitTakesFirstNonZeroWords :
    (∀ j : Nat, 1 ≤ j → j ≤ 3 → (splitterWord engineConfig 0 j ≠ 0 ↔ j = 1 ∨ j = 2 ∨ j = 3)) ∧
    (∀ j : Nat, 1 ≤ j → j ≤ 6 → (splitterWord evenConfig 0 j ≠ 0 ↔ j = 2 ∨ j = 4 ∨ j = 6)) :=
  ⟨positions_of_bounded 3 (by decide), positions_of_bounded 6 (by decide)⟩

/-- InitTakesFirstNonZeroWords, second clause: a finalizer that is zero everywhere. -/
theorem witness_InitTakesFirstNonZeroWords_fails :
    ∀ p1 p2 p3 : Nat, (p1 = 1 ∨ p1 = 2) → (p2 = p1 + 1 ∨ p2 = p1 + 2) → (p3 = p2 + 1 ∨ p3 = p2 + 2) →
      ¬ ∀ j : Nat, 1 ≤ j → j ≤ p3 → (splitterWord zeroConfig 0 j ≠ 0 ↔ j = p1 ∨ j = p2 ∨ j = p3) :=
  fun p1 _ _ h1 h2 h3 h => ((h p1 (by omega) (by omega)).2 (.inl rfl)) rfl

/-- InitOfPlainSeedTakesFirstThreeWords and DistinctSeedsGiveDistinctFastLoops. -/
theorem witness_InitOfPlainSeedTakesFirstThreeWords :
    ((0 : Word) ≠ 0x61c8864680b583eb ∧ (0 : Word) ≠ 0xc3910c8d016b07d6 ∧ (0 : Word) ≠ 0x255992d382208bc1) ∧
    ((0 : Word) ≠ 1 ∧ (1 : Word) ≠ 0x61c8864680b583eb) := by decide

/-- InvalidSeedNeedsDegenerateFinalizer: each clause; and StreamsOfOneSeedShareNoWord, its finalizer. -/
theorem witness_finalizers :
    plainConfig.FinZero ∧ plainConfig.FinBijective ∧ ∀ v : Word, zeroConfig.fin v = 0 :=
  ⟨fun _ => Iff.rfl, Function.bijective_id, fun _ => rfl⟩

/-- InvalidStreamOperandsAreAnswered: each way to be invalid, at its boundary. -/
theorem witness_InvalidStreamOperandsAreAnswered :
    ∀ p ∈ [((0 : Word), (0 : Word)), (0, 0x8000000000000001), (4, 4)],
      ¬ (1 ≤ p.2.toNat ∧ p.2.toNat ≤ 2 ^ 63 ∧ p.1.toNat < p.2.toNat) := by simp

/-- InitStreamSeedsNonZeroAtItsPlace, InitStreamTakesItsOwnWords and ConstructionForgetsTheStateBefore: valid operands at the
ends of their ranges. -/
theorem witness_InitStreamSeedsNonZeroAtItsPlace :
    ∀ p ∈ [((0 : Word), (1 : Word)), (0x7fffffffffffffff, 0x8000000000000000)],
      1 ≤ p.2.toNat ∧ p.2.toNat ≤ 2 ^ 63 ∧ p.1.toNat < p.2.toNat := by simp

/-- InitStreamTakesItsOwnWords, the words: no redraw, a redraw for both fields, and a finalizer that is zero everywhere. -/
theorem witness_InitStreamTakesItsOwnWords :
    (∀ j : Nat, 1 ≤ j → j ≤ 2 →
      (splitterWord engineConfig 0 (2 * (0 : Word).toNat + j) ≠ 0 ↔ j = 1 ∨ j = 2)) ∧
    (∀ j : Nat, 1 ≤ j → j ≤ 4 →
      (splitterWord evenConfig 0 (2 * (0 : Word).toNat + j) ≠ 0 ↔ j = 2 ∨ j = 4)) ∧
    (∀ p1 p2 : Nat, (p1 = 1 ∨ p1 = 2) → (p2 = p1 + 1 ∨ p2 = p1 + 2) →
      ¬ ∀ j : Nat, 1 ≤ j → j ≤ p2 →
        (splitterWord zeroConfig 0 (2 * (0 : Word).toNat + j) ≠ 0 ↔ j = p1 ∨ j = p2)) :=
  ⟨positions_of_bounded 2 (by decide), positions_of_bounded 4 (by decide),
    fun p1 _ h1 h2 h => ((h p1 (by omega) (by omega)).2 (.inl rfl)) rfl⟩

/-- PartitionIsDistinctAndEvenlySpaced: neighbours, and the two ends of the largest partition. -/
theorem witness_PartitionIsDistinctAndEvenlySpaced :
    ∀ p ∈ [((0 : Word), (1 : Word), (2 : Word)), (0, 0x7fffffffffffffff, 0x8000000000000000)],
      1 ≤ p.2.2.toNat ∧ p.2.2.toNat ≤ 2 ^ 63 ∧ p.1.toNat < p.2.1.toNat ∧ p.2.1.toNat < p.2.2.toNat := by simp

/-- StreamWordsDependOnTheirOperandsOnly: seeds 0 and `0x123456789`, counts 2 and 3, index 1 (section 2.5, program P8). -/
theorem witness_StreamWordsDependOnTheirOperandsOnly :
    after (exec (.initStream 0 1 2) State.reset) =
      some (some ⟨0x06c45d188009454f, 0x8000000000000001, 0xf88bb8a8724c81ec⟩, [.status .ok]) ∧
    after (exec (.initStream 0x123456789 1 2) State.reset) =
      some (some ⟨0xf13346557955b29b, 0x8000000000000001, 0xaa2b82cf90f5aac8⟩, [.status .ok]) ∧
    after (exec (.initStream 0 1 3) State.reset) =
      some (some ⟨0x06c45d188009454f, 0x5555555555555556, 0xf88bb8a8724c81ec⟩, [.status .ok]) ∧
    (1 ≤ (2 : Word).toNat ∧ (2 : Word).toNat ≤ 2 ^ 63 ∧ (1 : Word).toNat < (2 : Word).toNat) ∧
    (1 ≤ (3 : Word).toNat ∧ (3 : Word).toNat ≤ 2 ^ 63 ∧ (1 : Word).toNat < (3 : Word).toNat) := by
  refine ⟨?_, ?_, ?_, ?_, ?_⟩ <;> decide

/-- StreamsOfOneSeedShareNoWord: streams 0 and 1 of 2, with the finalizer of `witness_finalizers`. -/
theorem witness_StreamsOfOneSeedShareNoWord :
    (1 ≤ (2 : Word).toNat ∧ (2 : Word).toNat ≤ 2 ^ 63 ∧ (0 : Word).toNat < (2 : Word).toNat ∧
      (1 : Word).toNat < (2 : Word).toNat ∧ (0 : Word) ≠ 1) ∧
    ∀ p : Nat, p = 1 ∨ p = 2 →
      splitterWord plainConfig 0 (2 * (0 : Word).toNat + p) ≠ 0 ∧
      splitterWord plainConfig 0 (2 * (1 : Word).toNat + p) ≠ 0 := by
  refine ⟨by decide, ?_⟩
  rintro p (rfl | rfl) <;> decide

/-- WrapGapIsSpacingPlusRemainder: one stream, three, and the largest count. -/
theorem witness_WrapGapIsSpacingPlusRemainder :
    ∀ p ∈ [((0 : Word), (1 : Word)), (2, 3), (0x7fffffffffffffff, 0x8000000000000000)],
      1 ≤ p.2.toNat ∧ p.2.toNat ≤ 2 ^ 63 ∧ (0 : Word) = 0 ∧ p.1 = p.2 - 1 := by simp

/-- ReadThenLoadRestoresTheStream. -/
theorem witness_ReadThenLoadRestoresTheStream : (idle (some ⟨0, m64, 1⟩) []).valid = true := by decide

/-- ConstructionForgetsTheStateBefore: each of the three commands. -/
theorem witness_ConstructionForgetsTheStateBefore :
    ∀ i ∈ [Instr.load 0 0 0, .init 0, .initStream 0 0x7fffffffffffffff 0x8000000000000000],
      (∃ a b c : Word, i = .load a b c) ∨ (∃ seed : Word, i = .init seed) ∨
      ∃ seed idx k : Word, i = .initStream seed idx k ∧
        1 ≤ k.toNat ∧ k.toNat ≤ 2 ^ 63 ∧ idx.toNat < k.toNat := by
  intro i h
  simp only [List.mem_cons, List.not_mem_nil, or_false] at h
  rcases h with rfl | rfl | rfl
  · exact .inl ⟨0, 0, 0, rfl⟩
  · exact .inr (.inl ⟨0, rfl⟩)
  · exact .inr (.inr ⟨0, _, _, rfl, by decide, by decide, by decide⟩)

/-- ReservedOpcodesAreIllegalCommands: an instruction of the list, and words at the ends of the reserved ranges. -/
theorem witness_ReservedOpcodesAreIllegalCommands :
    Instr.reservedF ∈ [Instr.reserved0, .reserved7, .reserved8, .reserved9, .reservedA, .reservedB, .reservedC,
      .reservedD, .reservedE, .reservedF] ∧
    ∀ w ∈ [(0 : CommandWord), 0x7000000000000000500000000000000050000000000000005,
        0xfffffffffffffffffffffffffffffffffffffffffffffffff],
      (idle none [.command w]).input = .command w :: [] ∧ (idle none [.command w]).outgoing = [] ∧
      (w.op = 0 ∨ 7 ≤ w.op.toNat) := by simp [idle, CommandWord.op]

/-- FaultsChangeNothing and StatusCodesAndWhoRaisesThem: a command that answers each fault the engine as built can raise.
InvalidSeed is not among them (41_seeding.md R74). -/
theorem witness_FaultsChangeNothing :
    (∃ t, exec .next State.reset = .next t ∧ (answered State.reset t).head? = some (.status (.fault .notSeeded))) ∧
    (∃ t, exec (.initStream 0 0 0) State.reset = .next t ∧
      Beat.status (.fault .invalidStream) ∈ answered State.reset t) ∧
    (∃ t, exec .reserved0 State.reset = .next t ∧
      Beat.status (.fault .illegalCommand) ∈ answered State.reset t) := by
  refine ⟨⟨_, exec_eq _ _, ?_⟩, ⟨_, exec_eq _ _, ?_⟩, ⟨_, exec_eq _ _, ?_⟩⟩ <;> decide

/-- EveryCommandCompletesForATakingHost. -/
theorem witness_EveryCommandCompletesForATakingHost : (idle (some ⟨1, 2, 3⟩) []).outgoing = [] := by decide

/-- OnlyListedWritesHappen: LOAD into an unseeded engine, a slow step and `NEXT_N 0` of a seeded one, and an INIT that
changes the register. -/
theorem witness_OnlyListedWritesHappen :
    after (exec (.load 1 2 3) State.reset) = some (some ⟨1, 2, 3⟩, [.status .ok]) ∧
    after (exec .next (idle (some ⟨0, 5, 7⟩) [])) =
      some (some ⟨0x9e3779b97f4a7c15, 0x9e3779b97f4a7c1a, 0xecf1bbcdcbfa53e0⟩,
        [.status .ok, .word 0x538454127b096493]) ∧
    after (exec (.nextN 0) (idle (some ⟨0, 5, 7⟩) [])) = some (some ⟨0, 5, 7⟩, [.status .ok]) ∧
    after (exec (.init 0) (idle (some ⟨0, 5, 7⟩) [])) =
      some (some ⟨0xe220a8397b1dcdaf, 0x6e789e6aa1b965f4, 0x06c45d188009454f⟩, [.status .ok]) := by decide

/-- CommandDependsOnRegisterAlone: an idle engine and a busy one with the same register. -/
theorem witness_CommandDependsOnRegisterAlone :
    (idle (some ⟨1, 2, 3⟩) []).words = (busy (some ⟨1, 2, 3⟩) (.word 7) [.reset]).words ∧
    (∃ t, exec .read (idle (some ⟨1, 2, 3⟩) []) = .next t) ∧
    (∃ t, exec .read (busy (some ⟨1, 2, 3⟩) (.word 7) [.reset]) = .next t) :=
  ⟨rfl, ⟨_, rfl⟩, ⟨_, rfl⟩⟩

/-- StepKeepsInterfaceInvariant: a seeded engine in the middle of a response, whose host takes a word. -/
theorem witness_StepKeepsInterfaceInvariant :
    (busy (some ⟨1, 2, 3⟩) (.word 7) [.take]).Inv ∧
    ∃ t, step (busy (some ⟨1, 2, 3⟩) (.word 7) [.take]) = .next t :=
  ⟨⟨rfl, by simp [busy], by simp [busy], fun _ _ => rfl⟩, _, rfl⟩

end Sys2Proof.Tests
end

section
namespace Sys2Proof.Proofs.StateFamily

open Sys2Proof Sys2Proof.Machine

/-- The three commands that read the state register answer NotSeeded while it holds no value, and leave it so
(60_exceptions.md R94). -/
theorem answer_of_readsRegister_none {i : Instr} (hi : i = .next ∨ i = .read ∨ ∃ n : Word, i = .nextN n) :
    answer i none = (⟨.fault .notSeeded, []⟩, none) := by
  obtain rfl | rfl | ⟨n, rfl⟩ := hi
  · exact answer_next_none
  · exact answer_read_none
  · exact answer_nextN_none n

/-- On an unseeded engine, idle or not, a command that reads the state register does nothing but offer the one beat of
NotSeeded (60_exceptions.md R92, R94). -/
theorem exec_of_readsRegister_unseeded {i : Instr} (hi : i = .next ∨ i = .read ∨ ∃ n : Word, i = .nextN n)
    {s : State} (hs : s.words = none) :
    exec i s = .next { s with outgoing := s.outgoing ++ [.status (.fault .notSeeded)] } := by
  obtain ⟨words, outgoing, input, delivered⟩ := s
  obtain rfl : words = none := hs
  rw [exec_eq, answer_of_readsRegister_none hi]
  rfl

/-- Settles O8: the reset state holds no words and offers nothing, so it is a case of an unseeded engine. -/
theorem resetStateUnseededAndIdle : Obligations.ResetStateUnseededAndIdle := by
  refine ⟨(not_valid_iff _).mpr State.reset_words, State.reset_words, State.reset_outgoing, fun i hi => ?_⟩
  rw [exec_of_readsRegister_unseeded hi State.reset_words, State.reset_outgoing, List.nil_append]

end Sys2Proof.Proofs.StateFamily
end

section
namespace Sys2Proof.Proofs.EncodingFamily

open Sys2Proof Sys2Proof.Machine

/-! ### The fields of a command word as numbers (30_encoding.md R35) -/

section
variable (w : CommandWord)

theorem op_toNat : w.op.toNat = w.toNat / 2 ^ 192 := by
  rw [CommandWord.op, BitVec.extractLsb'_toNat, Nat.shiftRight_eq_div_pow]
  omega

theorem a_toNat : w.a.toNat = w.toNat / 2 ^ 128 % 2 ^ 64 := by
  rw [CommandWord.a, BitVec.extractLsb'_toNat, Nat.shiftRight_eq_div_pow]

theorem b_toNat : w.b.toNat = w.toNat / 2 ^ 64 % 2 ^ 64 := by
  rw [CommandWord.b, BitVec.extractLsb'_toNat, Nat.shiftRight_eq_div_pow]

theorem c_toNat : w.c.toNat = w.toNat % 2 ^ 64 := by
  rw [CommandWord.c, BitVec.extractLsb'_toNat, Nat.shiftRight_zero]

/-- Every command word is the number of its four fields. -/
theorem toNat_eq_fields :
    w.toNat = w.op.toNat * 2 ^ 192 + w.a.toNat * 2 ^ 128 + w.b.toNat * 2 ^ 64 + w.c.toNat := by
  rw [op_toNat, a_toNat, b_toNat, c_toNat]
  omega

end

/-- The four fields of a command word are the base-2^64 digits of its number, so the number fixes them. -/
theorem fields_of_toNat {w : CommandWord} {op : BitVec 4} {a b c : Word}
    (h : w.toNat = op.toNat * 2 ^ 192 + a.toNat * 2 ^ 128 + b.toNat * 2 ^ 64 + c.toNat) :
    w.op = op ∧ w.a = a ∧ w.b = b ∧ w.c = c := by
  have ha := a.isLt
  have hb := b.isLt
  have hc := c.isLt
  refine ⟨BitVec.eq_of_toNat_eq ?_, BitVec.eq_of_toNat_eq ?_, BitVec.eq_of_toNat_eq ?_, BitVec.eq_of_toNat_eq ?_⟩
  · rw [op_toNat]; omega
  · rw [a_toNat]; omega
  · rw [b_toNat]; omega
  · rw [c_toNat]; omega

/-- The number of any four fields is below 2^196, so the command word of that number has these fields. -/
theorem fields_ofNat (op : BitVec 4) (a b c : Word) {w : CommandWord}
    (hw : w = BitVec.ofNat 196 (op.toNat * 2 ^ 192 + a.toNat * 2 ^ 128 + b.toNat * 2 ^ 64 + c.toNat)) :
    w.op = op ∧ w.a = a ∧ w.b = b ∧ w.c = c := by
  have ho := op.isLt
  have ha := a.isLt
  have hb := b.isLt
  have hc := c.isLt
  refine fields_of_toNat ?_
  rw [hw, BitVec.toNat_ofNat, Nat.mod_eq_of_lt (by omega)]

/-- Settles O9: the word of the number has the given fields, and the decoder is then read off at each of the sixteen
opcodes. -/
theorem decodeIsTotalAndByOpcode : Obligations.DecodeIsTotalAndByOpcode := by
  refine ⟨fun op a b c => ?_, toNat_eq_fields⟩
  obtain ⟨hop, ha, hb, hc⟩ := fields_ofNat op a b c rfl
  rw [decode, hop, ha, hb, hc]
  obtain ⟨n, hn⟩ := op
  interval_cases n <;> rfl

/-! ### Reserved opcodes (30_encoding.md R40, 60_exceptions.md R93) -/

/-- The decoded command has the opcode of its word, whatever the other fields hold (30_encoding.md R39). -/
@[simp] theorem decode_opcode (w : CommandWord) : (decode w).opcode = w.op := by
  rw [decode]
  obtain ⟨n, hn⟩ := w.op
  interval_cases n <;> rfl

/-- A command with a reserved opcode does nothing, in any state, but offer the one beat of IllegalCommand. -/
theorem exec_of_reserved {i : Instr} (hi : i.opcode = 0 ∨ 7 ≤ i.opcode.toNat) (s : State) :
    exec i s = .next { s with outgoing := s.outgoing ++ [.status (.fault .illegalCommand)] } := by
  rw [exec_eq, answer_reserved _ _ hi]
  rfl

/-- A step of an idle engine whose host presents a command word performs the command it decodes to. -/
theorem step_of_command {s : State} {w : CommandWord} {rest : List HostEvent}
    (hin : s.input = .command w :: rest) (hidle : s.outgoing = []) :
    step s = exec (decode w) { s with input := rest } := by
  rw [step, hostMove, hin, hidle]

/-- Settles O47: the ten instructions are those of a reserved opcode, and a word with such an opcode decodes to one. -/
theorem reservedOpcodesAreIllegalCommands : Obligations.ReservedOpcodesAreIllegalCommands := by
  refine ⟨rfl, fun s i hi => ?_, fun s w rest hin hidle hop => ?_⟩
  · have reserved : ∀ i ∈ [Instr.reserved0, .reserved7, .reserved8, .reserved9, .reservedA, .reservedB, .reservedC,
        .reservedD, .reservedE, .reservedF], i.opcode = 0 ∨ 7 ≤ i.opcode.toNat := by decide
    exact exec_of_reserved (reserved i hi) s
  · rw [step_of_command hin hidle, exec_of_reserved (by rwa [decode_opcode]), hidle, List.nil_append]

end Sys2Proof.Proofs.EncodingFamily
end

section
namespace Sys2Proof.Proofs.StepFamily

open Sys2Proof Sys2Proof.Machine

/-- `GR` written out, as the statements about single commands write it. -/
theorem gr_literal : (0x9e3779b97f4a7c15 : Word) = gr := rfl

/-- NEXT is a word of opcode 3, whatever the operand fields hold (30_encoding.md R39). -/
theorem decode_of_op_three {w : CommandWord} (h : w.op = 3) : decode w = .next := by
  rw [decode, h]
  rfl

/-- Zero rotates to itself, which is why R55 needs one formula only for the next `fast_loop`. -/
theorem rotl_zero (k : Nat) : rotl 0 k = 0 := by
  simp [rotl]

/-- The step function in the form of R55, by its one test on the `fast_loop` before the step. -/
theorem nxt_eq_ite (f sl m : Word) :
    nxt ⟨f, sl, m⟩ =
      if f = 0 then ⟨rotl f 47 + gr, sl + gr, rotl (m ^^^ (sl + gr)) 59 + f⟩
      else ⟨rotl f 47 + gr, sl, rotl m 59 + f⟩ := by
  split
  case isTrue h =>
    rw [h, nxt_of_zero, rotl_zero, zero_add, add_zero]
  case isFalse h =>
    exact nxt_of_ne_zero f sl m h

/-- NEXT on a seeded engine, idle or not: OK, the output of the State before the step, and the next State
(40_step.md R56). -/
theorem exec_next_of_words {s : State} {w : Triple} (h : s.words = some w) :
    exec .next s = .next
      { s with words := some (nxt w), outgoing := s.outgoing ++ [.status .ok, .word (out w)] } := by
  rw [exec_eq, h, answer_next_some]
  rfl

/-- Settles O14: the unseeded answer is the one of every command that reads the register; on a seeded engine NEXT is
`nxt` and `out`, and `nxt` is the two-branch form of R55. -/
theorem nextDeliversOutputAndSteps : Obligations.NextDeliversOutputAndSteps := by
  refine ⟨fun w hw => decode_of_op_three hw,
    fun s hs => StateFamily.exec_of_readsRegister_unseeded (.inl rfl) hs, fun s f sl m hs => ?_⟩
  rw [exec_next_of_words hs, nxt_eq_ite, out, gr_literal]

end Sys2Proof.Proofs.StepFamily
end

section
namespace Sys2Proof.Proofs.StateAccessFamily

open Sys2Proof Sys2Proof.Machine

/-- LOAD is a word of opcode 5, and its operands are the three fields as they stand (30_encoding.md R39). -/
theorem decode_of_op_five {w : CommandWord} (h : w.op = 5) : decode w = .load w.a w.b w.c := by
  rw [decode, h]
  rfl

/-- READ is a word of opcode 6, whatever the operand fields hold (30_encoding.md R39). -/
theorem decode_of_op_six {w : CommandWord} (h : w.op = 6) : decode w = .read := by
  rw [decode, h]
  rfl

/-- A command whose answer leaves the register as it was does nothing but offer its response. -/
theorem exec_of_register_kept {i : Instr} {s : State} {r : Response} (h : answer i s.words = (r, s.words)) :
    exec i s = .next { s with outgoing := s.outgoing ++ responseBeats r } := by
  rw [exec_eq, h]

/-- LOAD looks at nothing in the state: no check stands before its write (43_state_access.md R87, R89). -/
theorem exec_load (s : State) (a b c : Word) :
    exec (.load a b c) s = .next
      { s with words := some ⟨a, b, c⟩, outgoing := s.outgoing ++ [.status .ok] } := by
  rw [exec_eq, answer_load]
  rfl

/-- READ on a seeded engine, idle or not, keeps the register and offers the three words in the order of R88. -/
theorem exec_read_of_words {s : State} {w : Triple} (h : s.words = some w) :
    exec .read s = .next
      { s with outgoing := s.outgoing ++ [.status .ok, .word w.fastLoop, .word w.slowLoop, .word w.mix] } :=
  exec_of_register_kept (r := ⟨.ok, [w.fastLoop, w.slowLoop, w.mix]⟩) (by rw [h, answer_read_some])

/-- Settles O42: opcode 5 alone selects LOAD, and its answer is the same in every state. -/
theorem loadSetsTheState : Obligations.LoadSetsTheState :=
  ⟨fun _ hw => decode_of_op_five hw, exec_load⟩

/-- Settles O43: opcode 6 alone selects READ; a seeded engine keeps its register and offers the words, and the unseeded
answer is the one of every command that reads the register. -/
theorem readObservesTheState : Obligations.ReadObservesTheState :=
  ⟨fun _ hw => decode_of_op_six hw, fun _ _ _ _ hs => exec_read_of_words hs,
    fun _ hs => StateFamily.exec_of_readsRegister_unseeded (.inr (.inl rfl)) hs⟩

end Sys2Proof.Proofs.StateAccessFamily
end

section
namespace Sys2Proof.Proofs.ExceptionsFamily

open Sys2Proof Sys2Proof.Machine

/-- INIT_STREAM of the built engine is INIT_STREAM at its own finalizer (42_stream_partitioner.md R81). -/
theorem exec_initStream (seed i k : Word) (s : State) :
    exec (.initStream seed i k) s = .next (initStreamWith engineConfig seed i k s) := by
  rw [exec, execInitStream]

/-- The operand check stands before every draw: where it fails, INIT_STREAM is the fault whatever the finalizer would give
(60_exceptions.md R95, R97). -/
theorem initStreamWith_of_not_streamValid (cfg : Config) (seed : Word) {i k : Word} (s : State)
    (h : ¬ streamValid i k = true) : initStreamWith cfg seed i k s = raise .invalidStream s := by
  rw [initStreamWith, if_neg h]

/-- On operands that are not valid, INIT_STREAM does nothing, in any state, but offer the one beat of InvalidStream
(42_stream_partitioner.md R78, 60_exceptions.md R92). -/
theorem initStreamWith_of_invalid_operands (cfg : Config) (seed : Word) {i k : Word} (s : State)
    (h : ¬ (1 ≤ k.toNat ∧ k.toNat ≤ 2 ^ 63 ∧ i.toNat < k.toNat)) :
    initStreamWith cfg seed i k s =
      { s with outgoing := s.outgoing ++ [.status (.fault .invalidStream)] } := by
  rw [initStreamWith_of_not_streamValid cfg seed s (mt (streamValid_iff i k).mp h), raise_eq]
  rfl

/-- Settles O35: the answer is the same for every finalizer, so in particular for the one of the built engine. -/
theorem invalidStreamOperandsAreAnswered : Obligations.InvalidStreamOperandsAreAnswered := by
  refine ⟨rfl, fun seed i k s h => ?_, fun cfg seed i k s h => initStreamWith_of_invalid_operands cfg seed s h⟩
  rw [exec_initStream, initStreamWith_of_invalid_operands engineConfig seed s h]

/-- Settles O46: the three commands are those that read the state register, which answer NotSeeded while it is empty. -/
theorem unseededUseIsAnsweredNotSeeded : Obligations.UnseededUseIsAnsweredNotSeeded :=
  ⟨rfl, fun _ _ hs hi => StateFamily.exec_of_readsRegister_unseeded hi hs⟩

end Sys2Proof.Proofs.ExceptionsFamily
end

section
namespace Sys2Proof.Proofs.ResetFamily

open Sys2Proof Sys2Proof.Machine

/-! ### What a command keeps -/

/-- No command takes its value from a register that holds one: it leaves a value there, the old or a new one
(10_state.md R23). -/
theorem answer_of_some (i : Instr) (w : Triple) :
    ∃ (r : Response) (v : Triple), answer i (some w) = (r, some v) := by
  cases i with
  | init seed =>
    obtain h | ⟨v, h⟩ := answer_init_cases (some w) seed
    · exact ⟨_, _, h⟩
    · exact ⟨_, _, h⟩
  | initStream seed i k =>
    obtain h | h | ⟨v, h⟩ := answer_initStream_cases (some w) seed i k
    · exact ⟨_, _, h⟩
    · exact ⟨_, _, h⟩
    · exact ⟨_, _, h⟩
  | next => exact ⟨_, _, answer_next_some w⟩
  | nextN n => exact ⟨_, _, answer_nextN_some w n⟩
  | load a b c => exact ⟨_, _, answer_load (some w) a b c⟩
  | read => exact ⟨_, _, answer_read_some w⟩
  | _ => exact ⟨_, _, answer_reserved (some w) _ (by decide)⟩

theorem exec_keeps_valid {i : Instr} {s t : State} (h : exec i s = .next t) (hs : s.valid = true) :
    t.valid = true := by
  obtain ⟨w, hw⟩ := (valid_iff s).mp hs
  obtain ⟨r, v, ha⟩ := answer_of_some i w
  rw [exec_eq, hw, ha] at h
  cases Host.Outcome.next.inj h
  exact (valid_iff _).mpr ⟨v, rfl⟩

/-- A command puts its response behind everything delivered and offered before. -/
theorem exec_keeps_beats {i : Instr} {s t : State} (h : exec i s = .next t) :
    s.delivered ++ s.outgoing <+: t.delivered ++ t.outgoing := by
  rw [exec_eq] at h
  cases Host.Outcome.next.inj h
  exact (List.prefix_append_right_inj _).mpr (List.prefix_append _ _)

/-! ### What a step keeps (70_reset_and_hazards.md R105) -/

@[simp] theorem takeBeat_valid (s : State) : (takeBeat s).valid = s.valid := by
  rw [State.valid, takeBeat_words, State.valid]

/-- A reset move is carried out in every state: no check of the engine stands before it. -/
theorem step_of_reset {s : State} {rest : List HostEvent} (hin : s.input = .reset :: rest) :
    step s = .next (applyReset { s with input := rest }) := by
  rw [step, hostMove, hin]

theorem step_keeps_valid_and_beats {s t : State} (ht : step s = .next t) (hr : s.input.head? ≠ some .reset) :
    (s.valid = true → t.valid = true) ∧ s.delivered ++ s.outgoing <+: t.delivered ++ t.outgoing := by
  obtain ⟨-, h⟩ | ⟨rest, hin, -⟩ | ⟨rest, -, h⟩ | ⟨w, rest, -, -, h⟩ | ⟨w, rest, -, -, h⟩ := step_spec s
  case inl =>
    cases h.symm.trans ht
    exact ⟨id, List.prefix_rfl⟩
  case inr.inl =>
    exact absurd (by rw [hin, List.head?_cons]) hr
  case inr.inr.inl =>
    cases h.symm.trans ht
    rw [takeBeat_valid, takeBeat_keeps_beats]
    exact ⟨id, List.prefix_rfl⟩
  case inr.inr.inr.inl =>
    have hexec : exec (decode w) { s with input := rest } = .next t := h.symm.trans ht
    have hvalid := exec_keeps_valid hexec
    have hbeats := exec_keeps_beats hexec
    exact ⟨hvalid, hbeats⟩
  case inr.inr.inr.inr =>
    cases h.symm.trans ht

/-- Settles O6: the step of a reset move is `applyReset`, whose fields are read off, and of the other moves a take hands a
beat over, a command leaves a value in the register and puts its response last, and waiting holds the state. -/
theorem resetAndOnlyResetUnseedsAndAbandons : Obligations.ResetAndOnlyResetUnseedsAndAbandons :=
  ⟨fun _ _ hin => ⟨_, step_of_reset hin, (not_valid_iff _).mpr (applyReset_words _), applyReset_words _,
    applyReset_outgoing _, applyReset_delivered _, applyReset_input _⟩,
    fun _ _ => step_keeps_valid_and_beats⟩

end Sys2Proof.Proofs.ResetFamily
end

section
namespace Sys2Proof.Proofs.OtherFamily

open Sys2Proof Sys2Proof.Machine EncodingFamily StepFamily

/-! ### Putting a command word together and taking it apart (30_encoding.md R35) -/

section
variable (op : BitVec 4) (a b c : Word)

/-- Appending one 64-bit field below a bit vector. -/
theorem append_word_toNat {n : Nat} (x : BitVec n) : (x ++ a).toNat = x.toNat * 2 ^ 64 + a.toNat := by
  rw [BitVec.toNat_append, Nat.shiftLeft_eq, Nat.mul_comm, Nat.two_pow_add_eq_or_of_lt a.isLt]

theorem commandWord_toNat : (commandWord op a b c).toNat =
    op.toNat * 2 ^ 192 + a.toNat * 2 ^ 128 + b.toNat * 2 ^ 64 + c.toNat := by
  rw [commandWord, append_word_toNat, append_word_toNat, append_word_toNat]
  ring

/-- A word put together from four fields has these fields. -/
theorem commandWord_fields :
    (commandWord op a b c).op = op ∧ (commandWord op a b c).a = a ∧ (commandWord op a b c).b = b ∧
      (commandWord op a b c).c = c :=
  fields_of_toNat (commandWord_toNat op a b c)

@[simp] theorem commandWord_a : (commandWord op a b c).a = a := by
  obtain ⟨-, ha, -, -⟩ := commandWord_fields op a b c
  exact ha

@[simp] theorem commandWord_b : (commandWord op a b c).b = b := by
  obtain ⟨-, -, hb, -⟩ := commandWord_fields op a b c
  exact hb

@[simp] theorem commandWord_c : (commandWord op a b c).c = c := by
  obtain ⟨-, -, -, hc⟩ := commandWord_fields op a b c
  exact hc

end

/-- Every command word is put together from its own fields. -/
theorem commandWord_of_fields (w : CommandWord) : commandWord w.op w.a w.b w.c = w :=
  BitVec.eq_of_toNat_eq (by rw [commandWord_toNat, ← toNat_eq_fields])

/-- Two command words with the same fields are one word. -/
@[simp] theorem commandWord_inj {op op' : BitVec 4} {a a' b b' c c' : Word} :
    commandWord op a b c = commandWord op' a' b' c' ↔ op = op' ∧ a = a' ∧ b = b' ∧ c = c' := by
  constructor
  · intro h
    obtain ⟨hop, ha, hb, hc⟩ := commandWord_fields op a b c
    obtain ⟨hop', ha', hb', hc'⟩ := commandWord_fields op' a' b' c'
    rw [h] at hop ha hb hc
    exact ⟨hop.symm.trans hop', ha.symm.trans ha', hb.symm.trans hb', hc.symm.trans hc'⟩
  · rintro ⟨rfl, rfl, rfl, rfl⟩
    rfl

/-! ### Decoding and encoding (30_encoding.md sections 1, 3 and 4) -/

/-- The decoder gives back every command from its canonical word: the opcode selects the command, and the fields it
reads are where the encoder put them. -/
theorem decode_encode (i : Instr) : decode (encode i) = i := by
  cases i <;> simp [encode, decode, commandWord_op]

/-- Settles O10: no instruction is ill formed, so the round trip holds of every one. -/
theorem decodeOfEncodeIsIdentity : Obligations.DecodeOfEncodeIsIdentity :=
  fun i _ => decode_encode i

/-- Settles O11: of a word with opcode `n`, both sides say that the fields its command ignores are zero. -/
theorem canonicalIffEncodeOfDecode : Obligations.CanonicalIffEncodeOfDecode := by
  intro w
  rw [← commandWord_of_fields w, eq_comm (a := encode _)]
  generalize w.a = a, w.b = b, w.c = c
  obtain ⟨n, hn⟩ := w.op
  interval_cases n <;> simp [CommandWord.canonical, encode, decode, commandWord_op]

/-- Settles O12: the ten words are closed terms, and the decoder computes. -/
theorem printedWordsDecode : Obligations.PrintedWordsDecode := by
  unfold Obligations.PrintedWordsDecode
  decide

/-- Settles O13: below 2^200 the number is taken whole, so the one check on its length decides. -/
theorem tableWordsAreCommandWords : Obligations.TableWordsAreCommandWords := by
  intro w hw
  rw [decodeTableWord, Nat.mod_eq_of_lt hw, commandWordOfNat]
  constructor
  · intro h
    rw [if_pos h]
  · intro h
    rw [if_neg (Nat.not_lt.mpr h)]

/-! ### What a command answers (30_encoding.md section 2, 60_exceptions.md section 1) -/

/-- Which commands can answer which fault (60_exceptions.md R91). -/
def MayRaise (i : Instr) (ws : Option Triple) : CommandFault → Prop
  | .invalidSeed => i.opcode = 1 ∨ i.opcode = 2
  | .invalidStream => i.opcode = 2
  | .notSeeded => ws = none ∧ (i.opcode = 3 ∨ i.opcode = 4 ∨ i.opcode = 6)
  | .illegalCommand => i.opcode = 0 ∨ 7 ≤ i.opcode.toNat

/-- How many data words a command delivers with the status OK: what it was asked for, or the three words of the register
(30_encoding.md R38). -/
def okLength : Instr → Nat
  | .read => 3
  | i => outputsAsked i

/-- All that a command can answer: a fault it may raise, with no data word and the register as it was; or OK, with its
own number of data words and a register that holds a value. -/
theorem answer_cases (i : Instr) (ws : Option Triple) :
    (∃ f, answer i ws = (⟨.fault f, []⟩, ws) ∧ MayRaise i ws f) ∨
    ∃ vs w, answer i ws = (⟨.ok, vs⟩, some w) ∧ vs.length = okLength i ∧ i.opcode ≠ 0 ∧ i.opcode.toNat < 7 := by
  cases i with
  | init seed =>
    obtain h | ⟨w, h⟩ := answer_init_cases ws seed
    · exact .inl ⟨_, h, .inl rfl⟩
    · exact .inr ⟨_, _, h, rfl, by simp [Instr.opcode]⟩
  | initStream seed i k =>
    obtain h | h | ⟨w, h⟩ := answer_initStream_cases ws seed i k
    · exact .inl ⟨_, h, rfl⟩
    · exact .inl ⟨_, h, .inr rfl⟩
    · exact .inr ⟨_, _, h, rfl, by simp [Instr.opcode]⟩
  | next =>
    cases ws with
    | none => exact .inl ⟨_, answer_next_none, rfl, .inl rfl⟩
    | some w => exact .inr ⟨_, _, answer_next_some w, rfl, by simp [Instr.opcode]⟩
  | nextN n =>
    cases ws with
    | none => exact .inl ⟨_, answer_nextN_none n, rfl, .inr (.inl rfl)⟩
    | some w => exact .inr ⟨_, _, answer_nextN_some w n, stepMany_length _ _, by simp [Instr.opcode]⟩
  | load a b c => exact .inr ⟨_, _, answer_load ws a b c, rfl, by simp [Instr.opcode]⟩
  | read =>
    cases ws with
    | none => exact .inl ⟨_, answer_read_none, rfl, .inr (.inr rfl)⟩
    | some w => exact .inr ⟨_, _, answer_read_some w, rfl, by simp [Instr.opcode]⟩
  | _ => exact .inl ⟨_, answer_reserved ws _ (by decide), by simp [MayRaise, Instr.opcode]⟩

/-- The same for `exec`: a fault leaves the state as it was but for its one beat, and OK puts a value in the
register. -/
theorem exec_cases {i : Instr} {s t : State} (h : exec i s = .next t) :
    (∃ f, t = { s with outgoing := s.outgoing ++ [.status (.fault f)] } ∧
      answered s t = [.status (.fault f)] ∧ MayRaise i s.words f) ∨
    ∃ (vs : List Word) (w : Triple),
      t = { s with words := some w, outgoing := s.outgoing ++ .status .ok :: vs.map Beat.word } ∧
      answered s t = .status .ok :: vs.map Beat.word ∧ vs.length = okLength i ∧
      i.opcode ≠ 0 ∧ i.opcode.toNat < 7 := by
  have hbeats := answered_eq i s t h
  rw [exec_eq] at h
  obtain ⟨f, ha, hf⟩ | ⟨vs, w, ha, hlen, hop⟩ := answer_cases i s.words
  · rw [ha] at h hbeats
    exact .inl ⟨f, (Host.Outcome.next.inj h).symm, hbeats, hf⟩
  · rw [ha] at h hbeats
    exact .inr ⟨vs, w, (Host.Outcome.next.inj h).symm, hbeats, hlen, hop⟩

/-- No count of data words is above the largest word (30_encoding.md R38, 40_step.md R57). -/
theorem okLength_lt (i : Instr) : okLength i < 2 ^ 64 := by
  cases i with
  | nextN n => exact n.isLt
  | _ => simp [okLength, outputsAsked]

/-- INIT and INIT_STREAM deliver no data word. -/
theorem okLength_of_seeding {i : Instr} (h : i.opcode = 1 ∨ i.opcode = 2) : okLength i = 0 := by
  cases i with
  | init | initStream => rfl
  | _ => exact absurd h (by simp [Instr.opcode])

/-- Settles O48: the first beat tells which of the two forms of an answer it is. -/
theorem faultsChangeNothing : Obligations.FaultsChangeNothing := by
  intro i s t f h hhead
  obtain ⟨g, ht, hbeats, -⟩ | ⟨vs, w, -, hbeats, -⟩ := exec_cases h
  · rw [hbeats] at hhead
    cases hhead
    exact ht
  · rw [hbeats] at hhead
    cases hhead

/-- Settles O49: a fault among the beats of an answer is its status, for an OK answer holds no fault. -/
theorem statusCodesAndWhoRaisesThem : Obligations.StatusCodesAndWhoRaisesThem := by
  refine ⟨rfl, rfl, rfl, rfl, rfl, fun i s t f h hmem => ?_⟩
  obtain ⟨g, -, hbeats, hg⟩ | ⟨vs, w, -, hbeats, -⟩ := exec_cases h
  · obtain rfl : f = g := by simpa [hbeats] using hmem
    cases f with
    | notSeeded => exact ⟨(not_valid_iff s).mpr hg.1, hg.2⟩
    | _ => exact hg
  · simp [hbeats] at hmem

/-- Settles O50: the response is the answer itself, and LOAD is the one command that looks at nothing. -/
theorem everyCommandAnswersOneResponse : Obligations.EveryCommandAnswersOneResponse := by
  intro i s
  refine ⟨_, (answer i s.words).1, exec_eq i s, rfl, rfl, rfl, ?_⟩
  obtain ⟨f, ha, hf⟩ | ⟨vs, w, ha, hlen, hop⟩ := answer_cases i s.words
  · refine ⟨fun _ => by rw [ha], fun hok => ?_, ?_⟩
    · rw [ha] at hok
      cases hok
    · rintro ⟨a, b, c, rfl⟩
      rw [answer_load]
  · rw [ha]
    refine ⟨fun hok => absurd rfl hok, fun _ => ?_, fun _ => rfl⟩
    cases i with
    | init | initStream | next | nextN | load | read => exact hlen
    | _ => exact absurd hop (by decide)

/-- Settles O52: `answer` is a function of the command and the register. -/
theorem commandDependsOnRegisterAlone : Obligations.CommandDependsOnRegisterAlone := by
  intro i s t s' t' hw hs ht
  rw [answered_eq i s s' hs, answered_eq i t t' ht, hw]
  rw [exec_eq] at hs ht
  cases Host.Outcome.next.inj hs
  cases Host.Outcome.next.inj ht
  rw [hw]
  exact ⟨rfl, rfl⟩

/-! ### Which command writes what (10_state.md R23) -/

/-- READ leaves the register as it is, seeded or not. -/
theorem answer_read_register (ws : Option Triple) : (answer .read ws).2 = ws := by
  cases ws with
  | none => rw [answer_read_none]
  | some w => rw [answer_read_some]

/-- NEXT_N of count 0 leaves the register as it is, seeded or not. -/
theorem answer_nextN_zero_register (ws : Option Triple) : (answer (.nextN 0) ws).2 = ws := by
  cases ws with
  | none => rw [answer_nextN_none]
  | some w => rw [answer_nextN_some]; rfl

/-- Only the commands with opcodes 1 to 5 write the register. -/
theorem opcode_of_register_changed {i : Instr} {ws : Option Triple} (h : (answer i ws).2 ≠ ws) :
    1 ≤ i.opcode.toNat ∧ i.opcode.toNat ≤ 5 := by
  cases i with
  | init | initStream | next | nextN | load => simp [Instr.opcode]
  | read => exact absurd (answer_read_register ws) h
  | _ => exact absurd (by rw [answer_reserved ws _ (by decide)]) h

/-- Only the three construction commands put a value into a register that holds none. -/
theorem opcode_of_seeds {i : Instr} (h : (answer i none).2 ≠ none) :
    i.opcode = 1 ∨ i.opcode = 2 ∨ i.opcode = 5 := by
  obtain ⟨f, ha, -⟩ | ⟨vs, w, ha, -⟩ := answer_cases i none
  · exact absurd (by rw [ha]) h
  · cases i with
    | init | initStream | load => simp [Instr.opcode]
    | next => cases answer_next_none.symm.trans ha
    | nextN n => cases (answer_nextN_none n).symm.trans ha
    | read => cases answer_read_none.symm.trans ha
    | _ => cases (answer_reserved none _ (by decide)).symm.trans ha

/-- The step writes `slow_loop` only from `fast_loop = 0` (10_state.md R15). -/
theorem fastLoop_zero_of_slowLoop_changed {w : Triple} (h : (nxt w).slowLoop ≠ w.slowLoop) : w.fastLoop = 0 := by
  by_contra hf
  exact h (by rw [nxt_slowLoop, if_neg hf])

/-- Settles O51: each clause is the one about the answer of that command. -/
theorem onlyListedWritesHappen : Obligations.OnlyListedWritesHappen := by
  intro i s t h
  have hwords : t.words = (answer i s.words).2 := by
    rw [exec_eq] at h
    cases Host.Outcome.next.inj h
    rfl
  refine ⟨ResetFamily.exec_keeps_valid h, fun hs ht => ?_, fun hne => ?_, ?_, ?_, fun hop hne => ?_⟩
  · rw [not_valid_iff] at hs
    obtain ⟨w, hw⟩ := (valid_iff t).mp ht
    rw [hs] at hwords
    exact opcode_of_seeds (by rw [← hwords, hw]; exact Option.some_ne_none w)
  · exact opcode_of_register_changed (hwords ▸ hne)
  · rintro w w' hw hw' rfl hslow
    rw [hw, answer_next_some, hw'] at hwords
    obtain rfl := Option.some.inj hwords
    exact fastLoop_zero_of_slowLoop_changed hslow
  · rintro rfl
    rw [hwords, answer_nextN_zero_register]
  · obtain ⟨f, rfl, -⟩ | ⟨vs, w, -, hbeats, hlen, -⟩ := exec_cases h
    · exact absurd rfl hne
    · obtain rfl : vs = [] := List.length_eq_zero_iff.mp (hlen.trans (okLength_of_seeding hop))
      exact hbeats

/-! ### One step, by the move of the host (00_scope.md R12) -/

/-- Settles O1: this is what a step does with a command when no beat is offered. -/
theorem stepPerformsPresentedCommand : Obligations.StepPerformsPresentedCommand :=
  fun _ _ _ hin hidle => step_of_command hin hidle

/-- The number of a command word, read as 200 bits, is presented as that word. -/
theorem withFetchWord_toNat (s : State) (w : CommandWord) : s.withFetchWord 200 w.toNat = presentNext w s := by
  have hw := w.isLt
  rw [State.withFetchWord, Nat.mod_eq_of_lt (by omega), commandWordOfNat, if_pos hw, BitVec.ofNat_toNat,
    BitVec.setWidth_eq]

/-- Settles O2: the word is presented to an idle engine, whose step performs what it decodes to. -/
theorem fetchedTableWordRunsItsCommand : Obligations.FetchedTableWordRunsItsCommand := by
  intro s i _
  rw [withFetchWord_toNat, step_of_command (presentNext_input _ s) (presentNext_outgoing _ s), decode_encode]
  rfl

/-- Settles O3: with no move pending the state is held. -/
theorem idleHostHoldsState : Obligations.IdleHostHoldsState := by
  intro s hin
  rw [step, hostMove, hin]

/-- Settles O4: only the beat still offered matters, not the word. -/
theorem commandWhileBusyIsRefused : Obligations.CommandWhileBusyIsRefused := by
  intro s w rest x xs hin hout
  rw [step, hostMove, hin, hout]

/-- The step of a take is `takeBeat`, in every state. -/
theorem step_of_take {s : State} {rest : List HostEvent} (hin : s.input = .take :: rest) :
    step s = .next (takeBeat { s with input := rest }) := by
  rw [step, hostMove, hin]

/-- Taking a beat, by the beats alone: the first one moves over, if there is one. -/
theorem takeBeat_eq (s : State) : takeBeat s =
    { s with outgoing := s.outgoing.drop 1, delivered := s.delivered ++ s.outgoing.take 1 } := by
  rcases s with ⟨ws, _ | ⟨x, xs⟩, inp, del⟩
  · simp [takeBeat]
  · rfl

/-- Settles O5: both clauses are the one rule of a take. -/
theorem takeDeliversBeatsInOrder : Obligations.TakeDeliversBeatsInOrder := by
  refine fun s rest hin => ⟨fun x xs hout => ?_, fun hout => ?_⟩
  · rw [step_of_take hin, takeBeat_eq]
    simp [hout]
  · rw [step_of_take hin, takeBeat_eq]
    simp [hout]

/-! ### The invariant of the host interface -/

/-- An initial part of a sequence of responses is one (a response may be cut short by reset, 70_reset_and_hazards.md
R107). -/
theorem beatsInResponses_of_append {b : Bool} {xs ys : List Beat} (h : beatsInResponses b (xs ++ ys) = true) :
    beatsInResponses b xs = true := by
  induction xs generalizing b with
  | nil => rfl
  | cons x xs ih =>
    cases x with
    | status st => exact ih h
    | word v =>
      obtain ⟨hb, hrest⟩ := Bool.and_eq_true_iff.mp h
      exact Bool.and_eq_true_iff.mpr ⟨hb, ih hrest⟩

/-- Behind an OK status any number of data words may stand. -/
theorem beatsInResponses_map_word (vs : List Word) : beatsInResponses true (vs.map Beat.word) = true := by
  induction vs with
  | nil => rfl
  | cons v vs ih => exact ih

/-- A whole response may stand behind whole responses, if it is an OK or has no data word. -/
theorem beatsInResponses_append_response {b : Bool} {xs : List Beat} {r : Response}
    (h : beatsInResponses b xs = true) (hr : r.status = .ok ∨ r.data = []) :
    beatsInResponses b (xs ++ responseBeats r) = true := by
  induction xs generalizing b with
  | nil =>
    obtain ⟨st, vs⟩ := r
    obtain rfl | rfl := hr
    · exact beatsInResponses_map_word vs
    · rfl
  | cons x xs ih =>
    cases x with
    | status st => exact ih h
    | word v =>
      obtain ⟨hb, hrest⟩ := Bool.and_eq_true_iff.mp h
      exact Bool.and_eq_true_iff.mpr ⟨hb, ih hrest⟩

/-- The form of every answer, whatever the command: only an OK has data words, they are as many as the command may
deliver, and then the register holds a value. -/
theorem answer_spec (i : Instr) (ws : Option Triple) :
    ((answer i ws).1.status = .ok ∨ (answer i ws).1.data = []) ∧
    (answer i ws).1.data.length ≤ okLength i ∧
    ((answer i ws).1.data = [] ∨ (answer i ws).2.isSome) := by
  obtain ⟨f, ha, -⟩ | ⟨vs, w, ha, hlen, -⟩ := answer_cases i ws
  · rw [ha]
    exact ⟨.inr rfl, Nat.zero_le _, .inl rfl⟩
  · rw [ha]
    exact ⟨.inl rfl, hlen.le, .inr rfl⟩

theorem responseBeats_length (r : Response) : (responseBeats r).length = r.data.length + 1 := by
  simp [responseBeats]

section
variable {s t : State}

/-- A command on an idle engine puts one response in flight. -/
theorem inv_of_exec {i : Instr} (hs : s.Inv) (hidle : s.outgoing = []) (h : exec i s = .next t) : t.Inv := by
  obtain ⟨hform, hlen, hseeded⟩ := answer_spec i s.words
  have hbeats : beatsInResponses false s.delivered = true := beatsInResponses_of_append hs.responses
  rw [exec_eq, hidle, List.nil_append] at h
  cases Host.Outcome.next.inj h
  refine ⟨beatsInResponses_append_response hbeats hform, ?_, ?_, ?_⟩
  · simp [responseBeats]
  · have := okLength_lt i
    rw [responseBeats_length]
    omega
  · intro v hv
    obtain hnil | hsome := hseeded
    · simp [responseBeats, hnil] at hv
    · exact hsome

/-- Taking a beat shortens what is offered and keeps the whole sequence. -/
theorem inv_of_takeBeat (hs : s.Inv) : (takeBeat s).Inv := by
  refine ⟨?_, fun st hst => ?_, ?_, fun v hv => ?_⟩
  · rw [takeBeat_keeps_beats]
    exact hs.responses
  · rw [takeBeat_outgoing] at hst
    exact hs.oneResponse st (List.mem_of_mem_tail hst)
  · have := hs.bounded
    rw [takeBeat_outgoing, List.length_tail]
    omega
  · rw [takeBeat_outgoing] at hv
    rw [ResetFamily.takeBeat_valid]
    exact hs.wordsSeeded v (List.mem_of_mem_tail hv)

/-- Reset leaves nothing offered. -/
theorem inv_of_applyReset (hs : s.Inv) : (applyReset s).Inv := by
  refine ⟨?_, by simp, by simp, by simp⟩
  rw [applyReset_delivered, applyReset_outgoing, List.append_nil]
  exact beatsInResponses_of_append hs.responses

/-- The invariant does not look at the host's moves. -/
theorem inv_of_input (hs : s.Inv) (inp : List HostEvent) : State.Inv { s with input := inp } :=
  ⟨hs.responses, hs.oneResponse, hs.bounded, hs.wordsSeeded⟩

end

/-- Settles O54: each thing a step can do keeps the invariant. -/
theorem stepKeepsInterfaceInvariant : Obligations.StepKeepsInterfaceInvariant := by
  intro s t hs ht
  obtain ⟨-, h⟩ | ⟨rest, -, h⟩ | ⟨rest, -, h⟩ | ⟨w, rest, -, hidle, h⟩ | ⟨w, rest, -, -, h⟩ := step_spec s
  · cases h.symm.trans ht
    exact hs
  · cases h.symm.trans ht
    exact inv_of_applyReset (inv_of_input hs rest)
  · cases h.symm.trans ht
    exact inv_of_takeBeat (inv_of_input hs rest)
  · exact inv_of_exec (inv_of_input hs rest) hidle (h.symm.trans ht)
  · cases h.symm.trans ht

/-- Settles O55: nothing is delivered and nothing offered. -/
theorem resetHasInterfaceInvariant : Obligations.ResetHasInterfaceInvariant :=
  ⟨rfl, by simp, by simp, by simp⟩

/-! ### Runs of the engine with its host (20_memory.md R30) -/

theorem run_succ_of_step {s t : State} (h : step s = .next t) (n : Nat) : run (n + 1) s = run n t := by
  rw [run, h]

/-- A host that takes `j` beats gets the first `j` of what is offered, or all if there are fewer. -/
theorem run_takes (j m : Nat) (s : State) (rest : List HostEvent) :
    run (j + m) { s with input := takes j ++ rest } =
      run m { s with
        outgoing := s.outgoing.drop j
        input := rest
        delivered := s.delivered ++ s.outgoing.take j } := by
  induction j generalizing s with
  | zero => simp [takes]
  | succ j ih =>
    have hstep := step_of_take (s := { s with input := takes (j + 1) ++ rest }) (rest := takes j ++ rest) rfl
    rw [takeBeat_eq] at hstep
    rw [Nat.succ_add, run_succ_of_step hstep, ih { s with outgoing := _, delivered := _ }, List.drop_drop,
      List.append_assoc, ← List.take_add, Nat.add_comm 1 j]

/-- A host that presents a command to an idle engine and takes `j` beats gets the first `j` beats of its answer. -/
theorem run_command_takes {s : State} (hidle : s.outgoing = []) (w : CommandWord) (j m : Nat)
    (rest : List HostEvent) :
    run (j + m + 1) { s with input := .command w :: (takes j ++ rest) } =
      run m
        { words := (answer (decode w) s.words).2
          outgoing := (responseBeats (answer (decode w) s.words).1).drop j
          input := rest
          delivered := s.delivered ++ (responseBeats (answer (decode w) s.words).1).take j } := by
  have hstep := step_of_command (s := { s with input := .command w :: (takes j ++ rest) }) rfl hidle
  rw [exec_eq] at hstep
  rw [run_succ_of_step hstep, hidle]
  exact run_takes j m { words := _, outgoing := _, input := [], delivered := _ } rest

/-- A host that takes at least as many beats as the answer has gets the whole answer, and the engine is idle again. -/
theorem run_command_takes_all {s : State} (hidle : s.outgoing = []) {w : CommandWord} {i : Instr}
    (hw : decode w = i) {j : Nat} (hj : (answer i s.words).1.data.length + 1 ≤ j)
    (m : Nat) (rest : List HostEvent) :
    run (j + m + 1) { s with input := .command w :: (takes j ++ rest) } =
      run m
        { words := (answer i s.words).2
          outgoing := []
          input := rest
          delivered := s.delivered ++ responseBeats (answer i s.words).1 } := by
  rw [← responseBeats_length] at hj
  rw [run_command_takes hidle, hw, List.drop_eq_nil_of_le hj, List.take_of_length_le hj]

/-- Settles O53: the host takes as many beats as the answer has. -/
theorem everyCommandCompletesForATakingHost : Obligations.EveryCommandCompletesForATakingHost := by
  intro s w rest hidle
  obtain ⟨-, hlen, -⟩ := answer_spec (decode w) s.words
  exact ⟨_, _, _, _, rfl, hlen.trans_lt (okLength_lt _), run_command_takes_all hidle rfl le_rfl 0 rest, rfl, rfl, rfl⟩

/-! ### The answer of NEXT_N (40_step.md R57) -/

/-- NEXT_N on a seeded register, by the iterates of the step. -/
theorem answer_nextN_iterates (n : Word) (w : Triple) :
    answer (.nextN n) (some w) =
      (⟨.ok, (List.range n.toNat).map fun k => out (nxt^[k] w)⟩, some (nxt^[n.toNat] w)) := by
  rw [answer_nextN_some, stepMany_spec]

/-- The beats of an OK response whose words are listed by their numbers. -/
theorem responseBeats_ok_map (n : Nat) (f : Nat → Word) :
    responseBeats ⟨.ok, (List.range n).map f⟩ = .status .ok :: (List.range n).map fun k => Beat.word (f k) := by
  rw [responseBeats, List.map_map]
  rfl

/-- Settles O15: it is the answer of NEXT_N, beat by beat. -/
theorem bulkNextDeliversEveryOutput : Obligations.BulkNextDeliversEveryOutput := by
  intro s w n hw
  rw [exec_eq, hw, answer_nextN_iterates, responseBeats_ok_map]

/-- Settles O7: after `j` takes the host has the first `j` beats, and the reset drops the others. -/
theorem resetDuringBulkLeavesCorrectPrefix : Obligations.ResetDuringBulkLeavesCorrectPrefix := by
  intro s w n j rest hw hidle _ hin
  obtain ⟨words, outgoing, input, delivered⟩ := s
  obtain rfl : words = some w := hw
  obtain rfl : input = _ := hin
  rw [run_command_takes (s := ⟨some w, outgoing, [], delivered⟩) hidle _ j 1, decode_encode, answer_nextN_iterates,
    responseBeats_ok_map, run_succ_of_step (ResetFamily.step_of_reset rfl)]
  rfl

/-! ### Counting steps from a register that may be empty -/

/-- The words that `n` steps deliver and the register they leave; an empty register delivers none and stays empty. -/
def steps (n : Nat) : Option Triple → List Word × Option Triple
  | none => ([], none)
  | some w => ((stepMany n w).1, some (stepMany n w).2)

theorem steps_none (n : Nat) : steps n none = ([], none) := rfl

theorem steps_some (n : Nat) (w : Triple) :
    steps n (some w) = ((List.range n).map fun k => out (nxt^[k] w), some (nxt^[n] w)) := by
  rw [steps, stepMany_spec]

theorem steps_zero (ws : Option Triple) : steps 0 ws = ([], ws) := by
  cases ws with
  | none => rfl
  | some w => rw [steps, stepMany]

/-- `j + k` steps are `j` steps and then `k` steps from the register these leave. -/
theorem steps_add (j k : Nat) (ws : Option Triple) :
    steps (j + k) ws = ((steps j ws).1 ++ (steps k (steps j ws).2).1, (steps k (steps j ws).2).2) := by
  cases ws with
  | none => rfl
  | some w =>
    simp only [steps_some, List.range_add, List.map_append, List.map_map]
    simp only [Function.comp_def, ← Function.iterate_add_apply, Nat.add_comm]

/-- The two commands that deliver outputs. -/
def AsksOutputs (i : Instr) : Prop := i = .next ∨ ∃ n : Word, i = .nextN n

/-- NEXT and NEXT_N deliver the words of the steps they ask for and leave the register of the last. -/
theorem answer_of_asksOutputs {i : Instr} (h : AsksOutputs i) (ws : Option Triple) :
    dataWords (responseBeats (answer i ws).1) = (steps (outputsAsked i) ws).1 ∧
      (answer i ws).2 = (steps (outputsAsked i) ws).2 := by
  obtain rfl | ⟨n, rfl⟩ := h
  · cases ws with
    | none => rw [answer_next_none]; exact ⟨rfl, rfl⟩
    | some w => rw [answer_next_some, outputsAsked, steps_some]; exact ⟨rfl, rfl⟩
  · cases ws with
    | none => rw [answer_nextN_none]; exact ⟨rfl, rfl⟩
    | some w => rw [answer_nextN_iterates, outputsAsked, steps_some]; exact ⟨dataWords_map_word _, rfl⟩

/-- The same for `exec`. -/
theorem exec_of_asksOutputs {i : Instr} (h : AsksOutputs i) (s : State) :
    ∃ t : State, exec i s = .next t ∧ t.words = (steps (outputsAsked i) s.words).2 ∧
      t.outgoing = s.outgoing ++ answered s t ∧
      dataWords (answered s t) = (steps (outputsAsked i) s.words).1 := by
  obtain ⟨hdata, hreg⟩ := answer_of_asksOutputs h s.words
  refine ⟨_, exec_eq i s, hreg, ?_, ?_⟩
  · rw [answered_eq i s _ (exec_eq i s)]
  · rw [answered_eq i s _ (exec_eq i s), hdata]

/-! ### The bulk form against single NEXTs (40_step.md R58) -/

/-- The host that asks for `n` words in one command. -/
theorem run_bulkNext {s : State} (hidle : s.outgoing = []) (n : Word) :
    ∃ t : State, run (n.toNat + 2) { s with input := bulkNext n } = .next t ∧
      t.words = (steps n.toNat s.words).2 ∧ t.outgoing = [] ∧ t.input = [] ∧
      dataWords t.delivered = dataWords s.delivered ++ (steps n.toNat s.words).1 := by
  obtain ⟨hdata, hreg⟩ := answer_of_asksOutputs (.inr ⟨n, rfl⟩) s.words
  obtain ⟨-, hlen, -⟩ := answer_spec (.nextN n) s.words
  have hrun := run_command_takes_all hidle (decode_encode (.nextN n)) (Nat.succ_le_succ hlen) 0 []
  rw [List.append_nil] at hrun
  refine ⟨_, hrun, hreg, rfl, rfl, ?_⟩
  rw [dataWords_append, hdata]
  rfl

/-- The host that asks for `n` words one at a time. -/
theorem run_singleNexts (n : Nat) {s : State} (hidle : s.outgoing = []) :
    ∃ u : State, run (3 * n) { s with input := singleNexts n } = .next u ∧
      u.words = (steps n s.words).2 ∧ u.outgoing = [] ∧ u.input = [] ∧
      dataWords u.delivered = dataWords s.delivered ++ (steps n s.words).1 := by
  induction n generalizing s with
  | zero => exact ⟨_, rfl, by rw [steps_zero], hidle, rfl, by rw [steps_zero, List.append_nil]⟩
  | succ n ih =>
    obtain ⟨hdata, hreg⟩ := answer_of_asksOutputs (.inl rfl) s.words
    obtain ⟨-, hlen, -⟩ := answer_spec .next s.words
    have hrun := run_command_takes_all hidle (decode_encode .next) (Nat.succ_le_succ hlen) (3 * n) (singleNexts n)
    obtain ⟨u, hu, hwords, hout, hin, hdel⟩ :=
      ih (s := ⟨(answer .next s.words).2, [], [], s.delivered ++ responseBeats (answer .next s.words).1⟩) rfl
    have hfuel : 3 * (n + 1) = 2 + 3 * n + 1 := by omega
    refine ⟨u, ?_, ?_, hout, hin, ?_⟩
    · rw [hfuel]
      exact hrun.trans hu
    · rw [hwords, hreg, Nat.add_comm n 1, steps_add]
      rfl
    · rw [hdel, dataWords_append, hdata, hreg, Nat.add_comm n 1, steps_add, List.append_assoc]
      rfl

/-- Settles O16: both hosts are given the words of `n` steps, and the steps of a sum are those of its parts. -/
theorem bulkNextEqualsSingleNexts : Obligations.BulkNextEqualsSingleNexts := by
  refine ⟨fun s n hidle => ?_, fun s j k hsum => ?_⟩
  · obtain ⟨t, ht, htw, hto, hti, htd⟩ := run_bulkNext hidle n
    obtain ⟨u, hu, huw, huo, hui, hud⟩ := run_singleNexts n.toNat hidle
    exact ⟨t, u, ht, hu, htw.trans huw.symm, hto, huo, hti, hui, htd.trans hud.symm⟩
  · obtain ⟨t, ht, htw, -, htd⟩ := exec_of_asksOutputs (.inr ⟨j, rfl⟩) s
    obtain ⟨u, hu, huw, -, hud⟩ := exec_of_asksOutputs (.inr ⟨k, rfl⟩) t
    obtain ⟨v, hv, hvw, -, hvd⟩ := exec_of_asksOutputs (.inr ⟨j + k, rfl⟩) s
    have hadd : outputsAsked (.nextN (j + k)) = outputsAsked (.nextN j) + outputsAsked (.nextN k) :=
      BitVec.toNat_add_of_lt hsum
    rw [hadd, steps_add, ← htw] at hvw hvd
    exact ⟨t, u, v, ht, hu, hv, hvw.trans huw.symm, by rw [hvd, htd, hud]⟩

/-- A list of NEXT and NEXT_N commands delivers the words of all the steps they ask for together. -/
theorem perform_of_asksOutputs (is : List Instr) (h : ∀ i ∈ is, AsksOutputs i) (s : State) :
    ∃ (t : State) (beats : List Beat), perform is s = .next t ∧ t.outgoing = s.outgoing ++ beats ∧
      t.words = (steps (is.map outputsAsked).sum s.words).2 ∧
      dataWords beats = (steps (is.map outputsAsked).sum s.words).1 := by
  induction is generalizing s with
  | nil => exact ⟨s, [], rfl, (List.append_nil _).symm, by simp [steps_zero], by simp [steps_zero, dataWords]⟩
  | cons i is ih =>
    obtain ⟨t, ht, htw, hto, htd⟩ := exec_of_asksOutputs (h i List.mem_cons_self) s
    obtain ⟨u, beats, hu, huo, huw, hud⟩ := ih (fun j hj => h j (List.mem_cons_of_mem i hj)) t
    refine ⟨u, answered s t ++ beats, ?_, ?_, ?_, ?_⟩
    · rw [perform, ht]
      exact hu
    · rw [huo, hto, List.append_assoc]
    · rw [huw, htw, List.map_cons, List.sum_cons, steps_add]
    · rw [dataWords_append, htd, hud, htw, List.map_cons, List.sum_cons, steps_add]

/-- Settles O17: the steps asked for together, from a register that holds a value. -/
theorem anyMixOfNextsDeliversOneSequence : Obligations.AnyMixOfNextsDeliversOneSequence := by
  intro is s w his hw
  obtain ⟨t, beats, ht, hto, htw, htd⟩ := perform_of_asksOutputs is his s
  rw [hw, steps_some] at htw htd
  refine ⟨t, ht, htw, ?_⟩
  rw [answered, hto, List.drop_left, htd]

/-! ### Rotation (00_scope.md R7, 40_step.md R52) -/

/-- In the range where R7 defines it, the rotation is the one of the bit vector library. -/
theorem rotl_eq_rotateLeft (x : Word) {k : Nat} (hk : k < 64) : rotl x k = x.rotateLeft k := by
  rw [rotl, BitVec.rotateLeft_def, Nat.mod_eq_of_lt hk]

theorem getLsbD_rotl (x : Word) {k i : Nat} (hk : k ≤ 63) (hi : i < 64) :
    (rotl x k).getLsbD i = x.getLsbD ((i + 64 - k) % 64) := by
  rw [rotl_eq_rotateLeft x (by omega), BitVec.getLsbD_rotateLeft, Nat.mod_eq_of_lt (by omega : k < 64),
    Bool.cond_decide]
  split
  case isTrue h =>
    congr 1
    omega
  case isFalse h =>
    rw [decide_eq_true hi, Bool.true_and]
    congr 1
    omega

/-- Rotating on by the rest of the 64 bits gives the word back. -/
theorem rotl_rotl (x : Word) {k : Nat} (h1 : 1 ≤ k) (h63 : k ≤ 63) : rotl (rotl x k) (64 - k) = x := by
  apply BitVec.eq_of_getLsbD_eq
  intro i hi
  rw [getLsbD_rotl _ (by omega) hi, getLsbD_rotl _ h63 (Nat.mod_lt _ (by omega))]
  congr 1
  omega

/-- Settles O27: bit by bit, and the round trip moves each bit on by 64. -/
theorem rotationBitsAndRoundTrip : Obligations.RotationBitsAndRoundTrip :=
  fun x _ h1 h63 => ⟨fun _ hi => getLsbD_rotl x h63 hi, rotl_rotl x h1 h63⟩

/-- Only zero rotates to zero. -/
theorem rotl_eq_zero {x : Word} {k : Nat} (h1 : 1 ≤ k) (h63 : k ≤ 63) : rotl x k = 0 ↔ x = 0 := by
  constructor
  · intro h
    rw [← rotl_rotl x h1 h63, h, rotl_zero]
  · rintro rfl
    exact rotl_zero k

/-! ### The step is a bijection (40_step.md R61, R63) -/

theorem predecessor_nxt (w : Triple) : predecessor (nxt w) = w := by
  obtain ⟨f, sl, m⟩ := w
  by_cases hf : f = 0
  · rw [hf, nxt_of_zero, predecessor, if_pos rfl]
    simp only [add_sub_cancel_right, Triple.mk.injEq, true_and]
    rw [rotl_rotl _ (k := 59) (by omega) (by omega), BitVec.xor_assoc, BitVec.xor_self, BitVec.xor_zero]
  · have hne : rotl f 47 + gr ≠ gr := fun h =>
      hf ((rotl_eq_zero (by omega) (by omega)).mp (add_eq_right.mp h))
    rw [nxt_of_ne_zero f sl m hf, predecessor, if_neg hne]
    simp only [add_sub_cancel_right]
    rw [rotl_rotl _ (k := 47) (by omega) (by omega), add_sub_cancel_right,
      rotl_rotl _ (k := 59) (by omega) (by omega)]

theorem nxt_predecessor (w : Triple) : nxt (predecessor w) = w := by
  obtain ⟨f, sl, m⟩ := w
  by_cases hf : f = gr
  · rw [predecessor, if_pos hf, nxt_of_zero]
    simp only [sub_add_cancel]
    rw [BitVec.xor_assoc, BitVec.xor_self, BitVec.xor_zero, rotl_rotl _ (k := 5) (by omega) (by omega), hf]
  · have hne : rotl (f - gr) 17 ≠ 0 := fun h =>
      hf (sub_eq_zero.mp ((rotl_eq_zero (by omega) (by omega)).mp h))
    rw [predecessor, if_neg hf, nxt_of_ne_zero _ _ _ hne, rotl_rotl _ (k := 17) (by omega) (by omega),
      rotl_rotl _ (k := 5) (by omega) (by omega), sub_add_cancel, sub_add_cancel]

/-- Settles O18: each branch undoes its rotation by the rest of the 64 bits. -/
theorem stepIsInvertible : Obligations.StepIsInvertible :=
  ⟨predecessor_nxt, nxt_predecessor⟩

/-- There are finitely many words. -/
theorem finite_word : Finite Word :=
  Finite.of_injective (BitVec.toFin : Word → Fin (2 ^ 64)) fun _ _ h => BitVec.eq_of_toFin_eq h

/-- There are finitely many States. -/
theorem finite_triple : Finite Triple := by
  have := finite_word
  refine Finite.of_injective (fun w : Triple => (w.fastLoop, w.slowLoop, w.mix)) fun v w h => ?_
  obtain ⟨hf, hs, hm⟩ : v.fastLoop = w.fastLoop ∧ v.slowLoop = w.slowLoop ∧ v.mix = w.mix := by
    simpa only [Prod.mk.injEq] using h
  cases v
  cases w
  subst hf hs hm
  rfl

/-- Settles O19: an injection of a finite set into itself brings every element back. -/
theorem everyStateRecurs : Obligations.EveryStateRecurs := by
  intro w
  have := finite_triple
  have hinj : Function.Injective nxt := Function.LeftInverse.injective predecessor_nxt
  obtain ⟨n, hn, hperiod⟩ := Function.mem_periodicPts.mp (hinj.mem_periodicPts w)
  exact ⟨n, hn, hperiod⟩

/-! ### Fixed points (40_step.md R60) -/

/-- A word and what a rotation and an addition leave in place: with x = 2^(64 - k) h + l the rotation by `k` is
2^k l + h, and the addition wraps or does not. -/
theorem digits_of_rotl_add_eq {x c : Word} {k : Nat} (hk : k ≤ 64) (e : rotl x k + c = x) :
    ∃ h l : ℤ, 0 ≤ h ∧ h < 2 ^ k ∧ 0 ≤ l ∧ l < 2 ^ (64 - k) ∧ (x.toNat : ℤ) = 2 ^ (64 - k) * h + l ∧
      (2 ^ k * l + h + c.toNat = 2 ^ (64 - k) * h + l ∨
        2 ^ k * l + h + c.toNat = 2 ^ (64 - k) * h + l + 2 ^ 64) := by
  have hsplit := Nat.div_add_mod x.toNat (2 ^ (64 - k))
  have hl : x.toNat % 2 ^ (64 - k) < 2 ^ (64 - k) := Nat.mod_lt _ (Nat.two_pow_pos _)
  have hh : x.toNat / 2 ^ (64 - k) < 2 ^ k := by
    rw [Nat.div_lt_iff_lt_mul (Nat.two_pow_pos _), ← Nat.pow_add, Nat.add_sub_cancel' hk]
    exact x.isLt
  have hsum : (rotl x k).toNat + c.toNat = x.toNat ∨ (rotl x k).toNat + c.toNat = x.toNat + 2 ^ 64 := by
    have hmod := congrArg BitVec.toNat e
    have hr := (rotl x k).isLt
    have hc := c.isLt
    rw [BitVec.toNat_add] at hmod
    omega
  rw [rotl_toNat x k hk] at hsum
  generalize x.toNat / 2 ^ (64 - k) = h, x.toNat % 2 ^ (64 - k) = l at *
  rw [← hsplit] at hsum ⊢
  exact ⟨h, l, by positivity, mod_cast hh, by positivity, mod_cast hl, by push_cast; rfl, mod_cast hsum⟩

/-- Both digits of a fixed point of the `fast_loop` map: the low one is fixed by a congruence modulo 2^17 - 1, without
a wrap the high one would then be too large. -/
theorem fastLoop_digits {h l : ℤ} (hh : h < 2 ^ 47) (h0 : 0 ≤ l) (h1 : l < 2 ^ 17)
    (e : 2 ^ 47 * l + h + 0x9e3779b97f4a7c15 = 2 ^ 17 * h + l ∨
      2 ^ 47 * l + h + 0x9e3779b97f4a7c15 = 2 ^ 17 * h + l + 2 ^ 64) :
    2 ^ 17 * h + l = 0x5050a1e1d03b6432 := by
  obtain e | e := e
  · have hdvd : (131071 : ℤ) ∣ 8191 * l + 77295 := ⟨h - 1073750016 * l - 86981214908890, by linarith⟩
    obtain rfl : l = 82448 := by
      clear e
      omega
    linarith
  · have hdvd : (131071 : ℤ) ∣ 8191 * l + 69103 := ⟨h - 1073750016 * l + 53757347196454, by linarith⟩
    obtain rfl : l = 91186 := by
      clear e
      omega
    linarith

/-- Both digits of a fixed `mix`: the low one is fixed by a congruence modulo 2^5 - 1, with a wrap the high one would
then be negative. -/
theorem mix_digits {h l : ℤ} (hh : 0 ≤ h) (h0 : 0 ≤ l) (h1 : l < 2 ^ 5)
    (e : 2 ^ 59 * l + h + 0x5050a1e1d03b6432 = 2 ^ 5 * h + l ∨
      2 ^ 59 * l + h + 0x5050a1e1d03b6432 = 2 ^ 5 * h + l + 2 ^ 64) :
    2 ^ 5 * h + l = 0x8cb65486003d4ea7 := by
  obtain e | e := e
  · have hdvd : (31 : ℤ) ∣ 15 * l + 19 := ⟨h - 18595508138820112 * l - 186687210077559809, by linarith⟩
    obtain rfl : l = 7 := by
      clear e
      omega
    linarith
  · have hdvd : (31 : ℤ) ∣ 15 * l + 3 := ⟨h - 18595508138820112 * l + 408369050364683791, by linarith⟩
    obtain rfl : l = 6 := by
      clear e
      omega
    linarith

theorem fastLoop_fixed_iff (x : Word) : rotl x 47 + gr = x ↔ x = fixedFast := by
  constructor
  · intro e
    obtain ⟨h, l, -, hh, hl0, hl1, hx, hsum⟩ := digits_of_rotl_add_eq (by omega) e
    exact BitVec.eq_of_toNat_eq (Int.ofNat_inj.mp (hx.trans (fastLoop_digits hh hl0 hl1 hsum)))
  · rintro rfl
    decide

theorem mix_fixed_iff (m : Word) : rotl m 59 + fixedFast = m ↔ m = fixedMix := by
  constructor
  · intro e
    obtain ⟨h, l, hh, -, hl0, hl1, hm, hsum⟩ := digits_of_rotl_add_eq (by omega) e
    exact BitVec.eq_of_toNat_eq (Int.ofNat_inj.mp (hm.trans (mix_digits hh hl0 hl1 hsum)))
  · rintro rfl
    decide

theorem fixedFast_ne_zero : fixedFast ≠ 0 := by decide

/-- A step from the fixed `fast_loop` moves `mix` alone. -/
theorem nxt_of_fixedFast (sl m : Word) : nxt ⟨fixedFast, sl, m⟩ = ⟨fixedFast, sl, rotl m 59 + fixedFast⟩ := by
  rw [nxt_of_ne_zero _ _ _ fixedFast_ne_zero, (fastLoop_fixed_iff fixedFast).mpr rfl]

theorem nxt_eq_self_iff (w : Triple) : nxt w = w ↔ w.fastLoop = fixedFast ∧ w.mix = fixedMix := by
  obtain ⟨f, sl, m⟩ := w
  constructor
  · intro h
    have hfast := congrArg Triple.fastLoop h
    rw [nxt_fastLoop] at hfast
    obtain rfl : f = fixedFast := (fastLoop_fixed_iff f).mp hfast
    rw [nxt_of_fixedFast, Triple.mk.injEq] at h
    obtain ⟨-, -, hmix⟩ := h
    exact ⟨rfl, (mix_fixed_iff m).mp hmix⟩
  · rintro ⟨rfl, rfl⟩
    rw [nxt_of_fixedFast, (mix_fixed_iff fixedMix).mpr rfl]

/-- Settles O20: NEXT leaves the register exactly in the fixed points of the step. -/
theorem fixedStatesAreExactlyThese : Obligations.FixedStatesAreExactlyThese := by
  refine ⟨fastLoop_fixed_iff, fun s t w hw ht => ?_⟩
  rw [exec_next_of_words hw] at ht
  cases Host.Outcome.next.inj ht
  rw [hw, ← nxt_eq_self_iff]
  exact Option.some_inj

/-- The output of a State given by its words; `slow_loop` does not enter (40_step.md R54). -/
theorem out_mk (f sl m : Word) : out ⟨f, sl, m⟩ = gr * (m + f) := rfl

/-- Settles O21: all iterates are the fixed state, and its output is the word. -/
theorem fixedStateOutputIsConstant : Obligations.FixedStateOutputIsConstant := by
  intro s sl n hw
  have hfixed : Function.IsFixedPt nxt ⟨fixedFast, sl, fixedMix⟩ := (nxt_eq_self_iff _).mpr ⟨rfl, rfl⟩
  have hout : out ⟨fixedFast, sl, fixedMix⟩ = 0x49bb72ecea41c7cd := by
    rw [out_mk]
    decide
  have hiter (k : Nat) : nxt^[k] ⟨fixedFast, sl, fixedMix⟩ = ⟨fixedFast, sl, fixedMix⟩ := hfixed.iterate k
  rw [bulkNextDeliversEveryOutput s _ n hw]
  simp only [hiter, hout, List.map_const', List.length_range, hw]

/-- Any number of steps from the fixed `fast_loop` keeps it, and `slow_loop` with it. -/
theorem iterate_of_fixedFast (n : Nat) (sl m : Word) :
    ∃ m' : Word, nxt^[n] ⟨fixedFast, sl, m⟩ = ⟨fixedFast, sl, m'⟩ := by
  induction n generalizing m with
  | zero => exact ⟨m, rfl⟩
  | succ n ih =>
    rw [Function.iterate_succ_apply, nxt_of_fixedFast]
    exact ih _

/-- Settles O22: the register after NEXT_N is that iterate. -/
theorem fixedFastLoopStaysForEver : Obligations.FixedFastLoopStaysForEver := by
  intro s sl m n hw
  obtain ⟨m', hm⟩ := iterate_of_fixedFast n.toNat sl m
  exact ⟨_, m', bulkNextDeliversEveryOutput s _ n hw, congrArg some hm⟩

/-- Settles O23: the slow branch from zero. -/
theorem zeroStateIsNotFixed : Obligations.ZeroStateIsNotFixed := by
  intro s hw
  have hnxt : nxt ⟨0, 0, 0⟩ = ⟨0x9e3779b97f4a7c15, 0x9e3779b97f4a7c15, 0xacf1bbcdcbfa53e0⟩ := by
    rw [nxt_of_zero]
    decide
  have hout : out ⟨0, 0, 0⟩ = 0 := by
    rw [out_mk]
    decide
  rw [exec_next_of_words hw, hnxt, hout]

/-! ### `slow_loop` (10_state.md R15, 40_step.md R64) -/

/-- `slow_loop` after `n` steps counts the slow ones. -/
theorem iterate_slowLoop (n : Nat) (w : Triple) :
    (nxt^[n] w).slowLoop = w.slowLoop + BitVec.ofNat 64 (slowSteps n w) * gr := by
  induction n generalizing w with
  | zero => simp [slowSteps]
  | succ n ih =>
    rw [Function.iterate_succ_apply, ih, nxt_slowLoop, slowSteps]
    split
    case isTrue =>
      rw [BitVec.ofNat_add, add_mul, show BitVec.ofNat 64 1 = 1 from rfl, one_mul, add_assoc]
    case isFalse =>
      rw [Nat.zero_add]

/-- Settles O24: the register after NEXT_N is the n-th iterate. -/
theorem slowLoopCountsZeroSteps : Obligations.SlowLoopCountsZeroSteps :=
  fun s w n hw => ⟨_, _, bulkNextDeliversEveryOutput s w n hw, rfl, iterate_slowLoop n.toNat w⟩

theorem stepMany_words_succ (n : Nat) (w : Triple) :
    (stepMany (n + 1) w).1 = out w :: (stepMany n (nxt w)).1 := by
  rw [stepMany]

/-- While no step before the last is slow, `slow_loop` enters no output. -/
theorem stepMany_words_of_slowLoop (n : Nat) (f sl sl' m : Word)
    (h : ∀ k : Nat, k + 1 < n → (nxt^[k] ⟨f, sl, m⟩).fastLoop ≠ 0) :
    (stepMany n ⟨f, sl, m⟩).1 = (stepMany n ⟨f, sl', m⟩).1 := by
  induction n generalizing f m with
  | zero => rw [stepMany, stepMany]
  | succ n ih =>
    rw [stepMany_words_succ, stepMany_words_succ, out_mk, out_mk]
    refine congrArg (List.cons _) ?_
    cases n with
    | zero => rw [stepMany, stepMany]
    | succ n =>
      have hf : f ≠ 0 := h 0 (by omega)
      rw [nxt_of_ne_zero f sl m hf, nxt_of_ne_zero f sl' m hf]
      refine ih _ _ fun k hk => ?_
      rw [← nxt_of_ne_zero f sl m hf, ← Function.iterate_succ_apply]
      exact h (k + 1) (by omega)

/-- Settles O25: the two answers hold the same words. -/
theorem slowLoopReachesNoOutputBeforeSlowStep : Obligations.SlowLoopReachesNoOutputBeforeSlowStep := by
  intro s t f sl sl' m n hs ht h
  refine ⟨_, _, exec_eq _ s, exec_eq _ t, ?_⟩
  rw [answered_eq _ s _ (exec_eq _ s), answered_eq _ t _ (exec_eq _ t), hs, ht, answer_nextN_some, answer_nextN_some,
    stepMany_words_of_slowLoop n.toNat f sl sl' m h]

/-! ### The output (40_step.md R54) -/

/-- An odd multiplier loses nothing: a word with an inverse may be cancelled. -/
theorem mul_left_inj_of_inverse {c d : Word} (h : d * c = 1) {x y : Word} : c * x = c * y ↔ x = y := by
  constructor
  · intro hxy
    rw [← one_mul x, ← one_mul y, ← h, mul_assoc, mul_assoc, hxy]
  · rintro rfl
    rfl

/-- The inverse of `GR` modulo 2^64. -/
theorem gr_inverse : 0xf1de83e19937733d * gr = 1 := by decide

theorem out_eq_iff (w w' : Triple) : out w = out w' ↔ w.mix + w.fastLoop = w'.mix + w'.fastLoop := by
  rw [out, out, mul_left_inj_of_inverse gr_inverse]

/-- Settles O26: `GR` is odd, so it may be cancelled. -/
theorem outputDependsOnSumAlone : Obligations.OutputDependsOnSumAlone := by
  refine ⟨fun f sl m => by rw [out_mk, gr_literal], out_eq_iff, fun w => ?_⟩
  rw [out, ← mul_left_inj_of_inverse gr_inverse (x := w.mix + w.fastLoop) (y := 0), mul_zero]

/-! ### Save and restore (43_state_access.md R90) -/

/-- Settles O44: the loaded register is the one read, and the rest depends on the register alone. -/
theorem readThenLoadRestoresTheStream : Obligations.ReadThenLoadRestoresTheStream := by
  intro s u hs
  obtain ⟨w, hw⟩ := (valid_iff s).mp hs
  refine ⟨_, w.fastLoop, w.slowLoop, w.mix, exec_eq .read s, ?_, _, exec_eq _ u, ?_, fun n => ?_⟩
  · rw [answered_eq _ s _ (exec_eq _ s), hw, answer_read_some]
    rfl
  · rw [hw, answer_load]
  · have hreg : s.words = (answer (.load w.fastLoop w.slowLoop w.mix) u.words).2 := by rw [hw, answer_load]
    obtain ⟨hwords, hanswered⟩ :=
      commandDependsOnRegisterAlone (.nextN n) s
        { u with words := _, outgoing := u.outgoing ++ _ } _ _ hreg (exec_eq _ _) (exec_eq _ _)
    exact ⟨_, _, exec_eq _ _, exec_eq _ _, hanswered, hwords⟩

/-! ### The default finalizer (41_seeding.md R69) -/

/-- A word that equals its own shift to the right is zero, so the exclusive or with that shift loses nothing. -/
theorem xor_ushiftRight_inj {k : Nat} (hk : 1 ≤ k) {x y : Word} (h : x ^^^ (x >>> k) = y ^^^ (y >>> k)) : x = y := by
  have hshift : x ^^^ y = (x ^^^ y) >>> k := by
    rw [BitVec.ushiftRight_xor_distrib, ← BitVec.xor_right_inj x, ← BitVec.xor_assoc, BitVec.xor_self,
      BitVec.zero_xor, ← BitVec.xor_assoc, h, BitVec.xor_assoc, BitVec.xor_self, BitVec.xor_zero]
  have hnat := congrArg BitVec.toNat hshift
  rw [BitVec.toNat_ushiftRight, Nat.shiftRight_eq_div_pow] at hnat
  have hzero : (x ^^^ y).toNat = 0 := by
    by_contra hne
    have hlt := Nat.div_lt_self (Nat.pos_of_ne_zero hne) (Nat.one_lt_two_pow (by omega : k ≠ 0))
    omega
  exact BitVec.xor_eq_zero_iff.mp (BitVec.eq_of_toNat_eq hzero)

/-- Each of the five operations of the default finalizer loses nothing: two multiplications by odd numbers between three
exclusive ors with a shift. -/
theorem finSM64_injective : Function.Injective finSM64 := by
  intro x y h
  have h31 := xor_ushiftRight_inj (k := 31) (by omega) h
  rw [mul_comm, mul_comm _ (0x94d049bb133111eb#64),
    mul_left_inj_of_inverse (d := 0x319642b2d24d8ec3) (by decide)] at h31
  have h27 := xor_ushiftRight_inj (k := 27) (by omega) h31
  rw [mul_comm, mul_comm _ (0xbf58476d1ce4e5b9#64),
    mul_left_inj_of_inverse (d := 0x96de1b173f119089) (by decide)] at h27
  exact xor_ushiftRight_inj (k := 30) (by omega) h27

theorem engineConfig_finZero : engineConfig.FinZero := by
  have hzero : finSM64 0 = 0 := by decide
  intro v
  constructor
  · intro h
    exact finSM64_injective (h.trans hzero.symm)
  · rintro rfl
    exact hzero

/-- Settles O33: an injection of the finitely many words into themselves is a bijection. -/
theorem defaultFinalizerHasNamedProperties : Obligations.DefaultFinalizerHasNamedProperties := by
  have := finite_word
  exact ⟨Finite.injective_iff_bijective.mp finSM64_injective, engineConfig_finZero⟩

/-! ### The positions of a splitter sequence (41_seeding.md R67) -/

/-- The splitter value after `j` draws from a start value. -/
def splitterAt (spl0 : Word) (j : Nat) : Word := spl0 + BitVec.ofNat 64 j * gr

theorem splitterWord_eq (cfg : Config) (spl0 : Word) (j : Nat) :
    splitterWord cfg spl0 j = cfg.fin (splitterAt spl0 j) := rfl

theorem splitterAt_zero (spl0 : Word) : splitterAt spl0 0 = spl0 := by
  simp [splitterAt]

theorem splitterAt_add (spl0 : Word) (j k : Nat) : splitterAt spl0 (j + k) = splitterAt (splitterAt spl0 j) k := by
  rw [splitterAt, splitterAt, splitterAt, BitVec.ofNat_add, add_mul, add_assoc]

theorem splitterAt_succ (spl0 : Word) (j : Nat) : splitterAt spl0 (j + 1) = splitterAt spl0 j + gr := by
  rw [splitterAt_add, splitterAt, show BitVec.ofNat 64 1 = 1 from rfl, one_mul]

/-- The 2^64 positions from 1 on have different splitter values, since `GR` is odd. -/
theorem splitterAt_inj {spl0 : Word} {a b : Nat} (ha : 1 ≤ a ∧ a ≤ 2 ^ 64) (hb : 1 ≤ b ∧ b ≤ 2 ^ 64)
    (h : splitterAt spl0 a = splitterAt spl0 b) : a = b := by
  have hmul := add_left_cancel h
  rw [mul_comm, mul_comm _ gr, mul_left_inj_of_inverse gr_inverse] at hmul
  have hnat := congrArg BitVec.toNat hmul
  rw [BitVec.toNat_ofNat, BitVec.toNat_ofNat] at hnat
  omega

/-! ### One draw of a non-zero word (41_seeding.md R70) -/

section
variable {cfg : Config} {spl : Word}

theorem drawNz_of_first_ne_zero (h : cfg.fin (spl + gr) ≠ 0) :
    drawNz cfg spl = some (cfg.fin (spl + gr), spl + gr) :=
  if_pos h

theorem drawNz_of_second_ne_zero (h1 : cfg.fin (spl + gr) = 0) (h2 : cfg.fin (spl + gr + gr) ≠ 0) :
    drawNz cfg spl = some (cfg.fin (spl + gr + gr), spl + gr + gr) :=
  (if_neg (not_not.mpr h1)).trans (if_pos h2)

theorem drawNz_of_both_zero (h1 : cfg.fin (spl + gr) = 0) (h2 : cfg.fin (spl + gr + gr) = 0) :
    drawNz cfg spl = none :=
  (if_neg (not_not.mpr h1)).trans (if_neg (not_not.mpr h2))

/-- With FIN-zero the redraw cannot be zero as well: two positions in a row are not both zero (41_seeding.md R74). -/
theorem drawNz_of_finZero (hcfg : cfg.FinZero) (spl : Word) : ∃ v spl', drawNz cfg spl = some (v, spl') := by
  by_cases h1 : cfg.fin (spl + gr) = 0
  · have hgr : cfg.fin (spl + gr + gr) ≠ 0 := by
      rw [(hcfg _).mp h1, zero_add, Ne, hcfg]
      decide
    exact ⟨_, _, drawNz_of_second_ne_zero h1 hgr⟩
  · exact ⟨_, _, drawNz_of_first_ne_zero h1⟩

end

/-- Settles O28: the three cases of a draw. -/
theorem nonZeroDrawTriesTwoPositions : Obligations.NonZeroDrawTriesTwoPositions :=
  fun _ _ => ⟨drawNz_of_first_ne_zero, drawNz_of_second_ne_zero, drawNz_of_both_zero⟩

/-- `p` is the first position after `j` with property `P`, and at most two on from `j`. -/
def FirstAfter (P : Nat → Prop) (j p : Nat) : Prop :=
  (p = j + 1 ∨ p = j + 2) ∧ ∀ i : Nat, j < i → i ≤ p → (P i ↔ i = p)

/-- Two positions listed as the statements list them are each the first after the one before. -/
theorem firstAfter_two {P : Nat → Prop} {p1 p2 : Nat} (h1 : p1 = 1 ∨ p1 = 2) (h2 : p2 = p1 + 1 ∨ p2 = p1 + 2) :
    (∀ j : Nat, 1 ≤ j → j ≤ p2 → (P j ↔ j = p1 ∨ j = p2)) ↔ FirstAfter P 0 p1 ∧ FirstAfter P p1 p2 := by
  constructor
  · intro h
    exact ⟨⟨by omega, fun i hi hp => (h i hi (by omega)).trans (by omega)⟩,
      ⟨h2, fun i hi hp => (h i (by omega) hp).trans (by omega)⟩⟩
  · rintro ⟨⟨-, f1⟩, -, f2⟩ j hj hp
    by_cases hj1 : j ≤ p1
    · exact (f1 j hj hj1).trans (by omega)
    · exact (f2 j (by omega) hp).trans (by omega)

/-- The same for three positions. -/
theorem firstAfter_three {P : Nat → Prop} {p1 p2 p3 : Nat} (h1 : p1 = 1 ∨ p1 = 2)
    (h2 : p2 = p1 + 1 ∨ p2 = p1 + 2) (h3 : p3 = p2 + 1 ∨ p3 = p2 + 2) :
    (∀ j : Nat, 1 ≤ j → j ≤ p3 → (P j ↔ j = p1 ∨ j = p2 ∨ j = p3)) ↔
      FirstAfter P 0 p1 ∧ FirstAfter P p1 p2 ∧ FirstAfter P p2 p3 := by
  rw [← and_assoc, ← firstAfter_two h1 h2]
  constructor
  · intro h
    exact ⟨fun i hi hp => (h i hi (by omega)).trans (by omega),
      ⟨h3, fun i hi hp => (h i (by omega) hp).trans (by omega)⟩⟩
  · rintro ⟨f12, -, f3⟩ j hj hp
    by_cases hj2 : j ≤ p2
    · exact (f12 j hj hj2).trans (by omega)
    · exact (f3 j (by omega) hp).trans (by omega)

section
variable {cfg : Config} {spl0 : Word} {j : Nat}

/-- A draw after `j` draws takes the first non-zero word, and the splitter stands at its position. -/
theorem drawNz_of_firstAfter {p : Nat} (h : FirstAfter (splitterWord cfg spl0 · ≠ 0) j p) :
    drawNz cfg (splitterAt spl0 j) = some (splitterWord cfg spl0 p, splitterAt spl0 p) := by
  obtain ⟨rfl | rfl, hfirst⟩ := h
  · have h1 : splitterWord cfg spl0 (j + 1) ≠ 0 := (hfirst (j + 1) (by omega) (by omega)).mpr rfl
    rw [splitterWord_eq, splitterAt_succ] at h1 ⊢
    exact drawNz_of_first_ne_zero h1
  · have h1 : splitterWord cfg spl0 (j + 1) = 0 :=
      not_not.mp (mt (hfirst (j + 1) (by omega) (by omega)).mp (by omega))
    have h2 : splitterWord cfg spl0 (j + 2) ≠ 0 := (hfirst (j + 2) (by omega) (by omega)).mpr rfl
    rw [splitterWord_eq, splitterAt_succ] at h1
    rw [splitterWord_eq, splitterAt_succ, splitterAt_succ] at h2 ⊢
    exact drawNz_of_second_ne_zero h1 h2

/-- A draw fails when there is no such position. -/
theorem drawNz_of_no_firstAfter (h : ∀ p : Nat, ¬ FirstAfter (splitterWord cfg spl0 · ≠ 0) j p) :
    drawNz cfg (splitterAt spl0 j) = none := by
  have h1 : splitterWord cfg spl0 (j + 1) = 0 := by
    by_contra hne
    refine h (j + 1) ⟨.inl rfl, fun i hi hp => ?_⟩
    obtain rfl : i = j + 1 := by omega
    exact iff_of_true hne rfl
  have h2 : splitterWord cfg spl0 (j + 2) = 0 := by
    by_contra hne
    refine h (j + 2) ⟨.inr rfl, fun i hi hp => ?_⟩
    obtain rfl | rfl : i = j + 1 ∨ i = j + 2 := by omega
    · exact iff_of_false (not_not.mpr h1) (by omega)
    · exact iff_of_true hne rfl
  rw [splitterWord_eq, splitterAt_succ] at h1
  rw [splitterWord_eq, splitterAt_succ, splitterAt_succ] at h2
  exact drawNz_of_both_zero h1 h2

end

/-! ### INIT (41_seeding.md section 2) -/

section
variable {cfg : Config} {seed : Word} {w : Triple}

/-- The three draws of INIT, each from where the one before left the splitter. -/
theorem initTriple_eq_bind (cfg : Config) (seed : Word) :
    initTriple cfg seed =
      (drawNz cfg seed).bind fun d1 => (drawNz cfg d1.2).bind fun d2 =>
        (drawNz cfg d2.2).map fun d3 => ⟨d1.1, d2.1, d3.1⟩ := by
  rw [initTriple]
  cases drawNz cfg seed with
  | none => rfl
  | some d1 =>
    dsimp only [Option.bind_some]
    cases drawNz cfg d1.2 with
    | none => rfl
    | some d2 =>
      dsimp only [Option.bind_some]
      cases drawNz cfg d2.2 with
      | none => rfl
      | some d3 => rfl

theorem initTriple_of_firstAfter {p1 p2 p3 : Nat} (f1 : FirstAfter (splitterWord cfg seed · ≠ 0) 0 p1)
    (f2 : FirstAfter (splitterWord cfg seed · ≠ 0) p1 p2) (f3 : FirstAfter (splitterWord cfg seed · ≠ 0) p2 p3) :
    initTriple cfg seed =
      some ⟨splitterWord cfg seed p1, splitterWord cfg seed p2, splitterWord cfg seed p3⟩ := by
  have d1 := drawNz_of_firstAfter f1
  rw [splitterAt_zero] at d1
  rw [initTriple_eq_bind, d1, Option.bind_some, drawNz_of_firstAfter f2, Option.bind_some, drawNz_of_firstAfter f3,
    Option.map_some]

theorem initTriple_of_no_firstAfter
    (h : ∀ p1 p2 p3 : Nat, FirstAfter (splitterWord cfg seed · ≠ 0) 0 p1 →
      FirstAfter (splitterWord cfg seed · ≠ 0) p1 p2 → ¬ FirstAfter (splitterWord cfg seed · ≠ 0) p2 p3) :
    initTriple cfg seed = none := by
  rw [initTriple_eq_bind, ← splitterAt_zero seed]
  by_cases h1 : ∃ p1, FirstAfter (splitterWord cfg seed · ≠ 0) 0 p1
  · obtain ⟨p1, f1⟩ := h1
    rw [drawNz_of_firstAfter f1, Option.bind_some]
    by_cases h2 : ∃ p2, FirstAfter (splitterWord cfg seed · ≠ 0) p1 p2
    · obtain ⟨p2, f2⟩ := h2
      rw [drawNz_of_firstAfter f2, Option.bind_some, drawNz_of_no_firstAfter fun p3 => h p1 p2 p3 f1 f2,
        Option.map_none]
    · rw [drawNz_of_no_firstAfter (not_exists.mp h2), Option.bind_none]
  · rw [drawNz_of_no_firstAfter (not_exists.mp h1), Option.bind_none]

/-- With FIN-zero INIT always builds a State. -/
theorem initTriple_of_finZero (hcfg : cfg.FinZero) (seed : Word) : ∃ w, initTriple cfg seed = some w := by
  obtain ⟨v1, s1, d1⟩ := drawNz_of_finZero hcfg seed
  obtain ⟨v2, s2, d2⟩ := drawNz_of_finZero hcfg s1
  obtain ⟨v3, s3, d3⟩ := drawNz_of_finZero hcfg s2
  exact ⟨⟨v1, v2, v3⟩, by rw [initTriple_eq_bind, d1, Option.bind_some, d2, Option.bind_some, d3, Option.map_some]⟩

/-- `fast_loop` is the first word drawn. -/
theorem initTriple_fastLoop {v spl : Word} (hdraw : drawNz cfg seed = some (v, spl))
    (h : initTriple cfg seed = some w) : w.fastLoop = v := by
  rw [initTriple_eq_bind, hdraw, Option.bind_some] at h
  obtain ⟨d2, -, hd3⟩ := Option.bind_eq_some_iff.mp h
  obtain ⟨d3, -, rfl⟩ := Option.map_eq_some_iff.mp hd3
  rfl

theorem finishConstruction_some (w : Triple) (s : State) :
    finishConstruction (some w) s = { s with words := some w, outgoing := s.outgoing ++ [.status .ok] } := by
  rw [finishConstruction, respond_construct]
  rfl

theorem finishConstruction_none (s : State) :
    finishConstruction none s = { s with outgoing := s.outgoing ++ [.status (.fault .invalidSeed)] } := by
  rw [finishConstruction, raise_eq]
  rfl

end

/-- Settles O29: the positions listed are those of the three draws. -/
theorem initTakesFirstNonZeroWords : Obligations.InitTakesFirstNonZeroWords := by
  refine fun cfg seed s => ⟨fun p1 p2 p3 h1 h2 h3 h => ?_, fun h => ?_⟩
  · obtain ⟨f1, f2, f3⟩ := (firstAfter_three h1 h2 h3).mp h
    rw [initWith, initTriple_of_firstAfter f1 f2 f3, finishConstruction_some]
  · have hnone : initTriple cfg seed = none := initTriple_of_no_firstAfter fun p1 p2 p3 f1 f2 f3 =>
      h p1 p2 p3 f1.1 f2.1 f3.1 ((firstAfter_three f1.1 f2.1 f3.1).mpr ⟨f1, f2, f3⟩)
    rw [initWith, hnone, finishConstruction_none]

/-- Settles O34: FIN-zero leaves no draw to fail, and a finalizer that is zero everywhere fails the first. -/
theorem invalidSeedNeedsDegenerateFinalizer : Obligations.InvalidSeedNeedsDegenerateFinalizer := by
  refine ⟨fun cfg hcfg seed s => ?_, fun cfg hcfg seed s => ?_⟩
  · obtain ⟨w, hw⟩ := initTriple_of_finZero hcfg seed
    exact ⟨w, by rw [initWith, hw, finishConstruction_some]⟩
  · rw [initWith, initTriple_eq_bind, drawNz_of_both_zero (hcfg _) (hcfg _), Option.bind_none,
      finishConstruction_none]

/-- INIT on the engine as built, once its State is known. -/
theorem exec_init_of_some {seed : Word} {w : Triple} (h : initTriple engineConfig seed = some w) (s : State) :
    exec (.init seed) s = .next { s with words := some w, outgoing := s.outgoing ++ [.status .ok] } := by
  rw [exec, execInit, initWith, h, finishConstruction_some]

/-- Settles O30: the built finalizer has FIN-zero, and what is drawn is not zero. -/
theorem initAlwaysSeedsNonZero : Obligations.InitAlwaysSeedsNonZero := by
  intro seed s
  obtain ⟨w, hw⟩ := initTriple_of_finZero engineConfig_finZero seed
  exact ⟨w, initTriple_nonZero hw, exec_init_of_some hw s⟩

/-- The built engine draws the word at the next position unless the splitter is zero there. -/
theorem drawNz_engineConfig {spl : Word} (h : spl + gr ≠ 0) :
    drawNz engineConfig spl = some (finSM64 (spl + gr), spl + gr) :=
  drawNz_of_first_ne_zero (mt (engineConfig_finZero _).mp h)

/-- The seed whose first splitter value is zero, `2^64 - GR`. -/
theorem add_gr_ne_zero {seed : Word} (h : seed ≠ 0x61c8864680b583eb) : seed + gr ≠ 0 := fun hz =>
  h ((eq_neg_of_add_eq_zero_left hz).trans (by decide))

/-- Settles O31: each excluded seed is the one whose splitter is zero at one of the three positions. -/
theorem initOfPlainSeedTakesFirstThreeWords : Obligations.InitOfPlainSeedTakesFirstThreeWords := by
  intro seed s h1 h2 h3
  have e2 : seed + gr + gr = seed + 2 * gr := by ring
  have e3 : seed + 2 * gr + gr = seed + 3 * gr := by ring
  have n2 : seed + gr + gr ≠ 0 := fun hz => h2 ((eq_neg_of_add_eq_zero_left (e2 ▸ hz)).trans (by decide))
  have n3 : seed + 2 * gr + gr ≠ 0 := fun hz => h3 ((eq_neg_of_add_eq_zero_left (e3 ▸ hz)).trans (by decide))
  refine exec_init_of_some ?_ s
  rw [initTriple_eq_bind, drawNz_engineConfig (add_gr_ne_zero h1), Option.bind_some, drawNz_engineConfig n2,
    Option.bind_some, e2, drawNz_engineConfig n3, Option.map_some, e3]

/-- Settles O32: the first draw is the finalizer of a different splitter value. -/
theorem distinctSeedsGiveDistinctFastLoops : Obligations.DistinctSeedsGiveDistinctFastLoops := by
  intro seed seed' s hne h h'
  obtain ⟨w, hw⟩ := initTriple_of_finZero engineConfig_finZero seed
  obtain ⟨v, hv⟩ := initTriple_of_finZero engineConfig_finZero seed'
  refine ⟨_, _, w, v, exec_init_of_some hw s, exec_init_of_some hv s, rfl, rfl, fun heq => hne ?_⟩
  rw [initTriple_fastLoop (drawNz_engineConfig (add_gr_ne_zero h)) hw,
    initTriple_fastLoop (drawNz_engineConfig (add_gr_ne_zero h')) hv] at heq
  exact add_right_cancel (finSM64_injective heq)

/-! ### INIT_STREAM (42_stream_partitioner.md) -/

/-- The two draws of INIT_STREAM, `fast_loop` and then `mix`, from the splitter start of the stream. -/
def streamDraws (cfg : Config) (seed index : Word) : Option (Word × Word) :=
  (drawNz cfg (streamSplitter seed index)).bind fun d1 => (drawNz cfg d1.2).map fun d2 => (d1.1, d2.1)

/-- The count enters `slow_loop` alone, and the draws the other two words alone. -/
theorem streamTriple_eq_map (cfg : Config) (seed index count : Word) :
    streamTriple cfg seed index count =
      (streamDraws cfg seed index).map fun d => ⟨d.1, streamSlow index count, d.2⟩ := by
  rw [streamTriple, streamDraws]
  cases drawNz cfg (streamSplitter seed index) with
  | none => rfl
  | some d1 =>
    dsimp only [Option.bind_some]
    cases drawNz cfg d1.2 with
    | none => rfl
    | some d2 => rfl

/-- The splitter of stream `i` starts where the seed's splitter stands after `2 i` draws. -/
theorem streamSplitter_eq (seed index : Word) : streamSplitter seed index = splitterAt seed (2 * index.toNat) := by
  rw [streamSplitter, splitterAt, BitVec.ofNat_mul, BitVec.ofNat_toNat, BitVec.setWidth_eq]
  rfl

theorem splitterWord_streamSplitter (cfg : Config) (seed index : Word) (j : Nat) :
    splitterWord cfg (streamSplitter seed index) j = splitterWord cfg seed (2 * index.toNat + j) := by
  rw [splitterWord_eq, splitterWord_eq, splitterAt_add, streamSplitter_eq]

section
variable {cfg : Config} {seed index : Word}

theorem streamDraws_of_firstAfter {p1 p2 : Nat}
    (f1 : FirstAfter (splitterWord cfg (streamSplitter seed index) · ≠ 0) 0 p1)
    (f2 : FirstAfter (splitterWord cfg (streamSplitter seed index) · ≠ 0) p1 p2) :
    streamDraws cfg seed index =
      some (splitterWord cfg (streamSplitter seed index) p1, splitterWord cfg (streamSplitter seed index) p2) := by
  have d1 := drawNz_of_firstAfter f1
  rw [splitterAt_zero] at d1
  rw [streamDraws, d1, Option.bind_some, drawNz_of_firstAfter f2, Option.map_some]

theorem streamDraws_of_no_firstAfter
    (h : ∀ p1 p2 : Nat, FirstAfter (splitterWord cfg (streamSplitter seed index) · ≠ 0) 0 p1 →
      ¬ FirstAfter (splitterWord cfg (streamSplitter seed index) · ≠ 0) p1 p2) :
    streamDraws cfg seed index = none := by
  rw [streamDraws, ← splitterAt_zero (streamSplitter seed index)]
  by_cases h1 : ∃ p1, FirstAfter (splitterWord cfg (streamSplitter seed index) · ≠ 0) 0 p1
  · obtain ⟨p1, f1⟩ := h1
    rw [drawNz_of_firstAfter f1, Option.bind_some, drawNz_of_no_firstAfter fun p2 => h p1 p2 f1, Option.map_none]
  · rw [drawNz_of_no_firstAfter (not_exists.mp h1), Option.bind_none]

/-- Where no draw is zero the two words of a stream are those at the first two positions of its splitter. -/
theorem streamDraws_of_ne_zero (h : ∀ p : Nat, p = 1 ∨ p = 2 → splitterWord cfg (streamSplitter seed index) p ≠ 0) :
    streamDraws cfg seed index =
      some (splitterWord cfg (streamSplitter seed index) 1, splitterWord cfg (streamSplitter seed index) 2) := by
  obtain ⟨f1, f2⟩ : FirstAfter (splitterWord cfg (streamSplitter seed index) · ≠ 0) 0 1 ∧
      FirstAfter (splitterWord cfg (streamSplitter seed index) · ≠ 0) 1 2 := by
    refine (firstAfter_two (by omega) (by omega)).mp fun j hj hj2 => ?_
    have hj12 : j = 1 ∨ j = 2 := by omega
    exact iff_of_true (h j hj12) hj12
  exact streamDraws_of_firstAfter f1 f2

/-- With FIN-zero both draws succeed, with words that are not zero. -/
theorem streamDraws_of_finZero (hcfg : cfg.FinZero) (seed index : Word) :
    ∃ f m : Word, streamDraws cfg seed index = some (f, m) ∧ f ≠ 0 ∧ m ≠ 0 := by
  obtain ⟨f, s1, d1⟩ := drawNz_of_finZero hcfg (streamSplitter seed index)
  obtain ⟨m, s2, d2⟩ := drawNz_of_finZero hcfg s1
  exact ⟨f, m, by rw [streamDraws, d1, Option.bind_some, d2, Option.map_some], drawNz_word_ne_zero d1,
    drawNz_word_ne_zero d2⟩

end

/-- Operands that INIT_STREAM accepts (42_stream_partitioner.md R78), as the statements write it. -/
def ValidOperands (index count : Word) : Prop :=
  1 ≤ count.toNat ∧ count.toNat ≤ 2 ^ 63 ∧ index.toNat < count.toNat

section
variable {index count : Word} (hvalid : ValidOperands index count)
include hvalid

theorem initStreamWith_of_draws {cfg : Config} {seed f m : Word} (h : streamDraws cfg seed index = some (f, m))
    (s : State) :
    initStreamWith cfg seed index count s =
      { s with words := some ⟨f, streamSlow index count, m⟩, outgoing := s.outgoing ++ [.status .ok] } := by
  rw [initStreamWith, if_pos ((streamValid_iff index count).mpr hvalid), streamTriple_eq_map, h, Option.map_some,
    finishConstruction_some]

theorem initStreamWith_of_no_draws {cfg : Config} {seed : Word} (h : streamDraws cfg seed index = none) (s : State) :
    initStreamWith cfg seed index count s =
      { s with outgoing := s.outgoing ++ [.status (.fault .invalidSeed)] } := by
  rw [initStreamWith, if_pos ((streamValid_iff index count).mpr hvalid), streamTriple_eq_map, h, Option.map_none,
    finishConstruction_none]

/-- INIT_STREAM with valid operands on the engine as built completes in every state. The words it draws are those of its
seed and index, and its `slow_loop` is that of its index and count. -/
theorem exec_initStream_of_valid (seed : Word) :
    ∃ f m : Word, streamDraws engineConfig seed index = some (f, m) ∧ f ≠ 0 ∧ m ≠ 0 ∧
      ∀ s : State, exec (.initStream seed index count) s = .next
        { s with words := some ⟨f, streamSlow index count, m⟩, outgoing := s.outgoing ++ [.status .ok] } := by
  obtain ⟨f, m, hdraws, hf, hm⟩ := streamDraws_of_finZero engineConfig_finZero seed index
  refine ⟨f, m, hdraws, hf, hm, fun s => ?_⟩
  rw [ExceptionsFamily.exec_initStream, initStreamWith_of_draws hvalid hdraws]

/-- Even the last stream of a partition lies below 2^64, so that `slow_loop` is the integer formula without wrap
(42_stream_partitioner.md R79). -/
theorem streamSlow_toNat : (streamSlow index count).toNat = 1 + index.toNat * (2 ^ 64 / count.toNat) := by
  obtain ⟨h1, h63, hi⟩ := hvalid
  have htwo : 2 ≤ 2 ^ 64 / count.toNat := (Nat.le_div_iff_mul_le h1).mpr (by omega)
  have hmul : (index.toNat + 1) * (2 ^ 64 / count.toNat) ≤ 2 ^ 64 :=
    (Nat.mul_le_mul_right _ hi).trans (Nat.mul_div_le _ _)
  rw [Nat.succ_mul] at hmul
  rw [streamSlow, BitVec.toNat_ofNat, streamBase, streamSpacing, Nat.mod_eq_of_lt (by omega)]

end

/-- Settles O36: the draws of the built engine succeed, and `slow_loop` is at least 1. -/
theorem initStreamSeedsNonZeroAtItsPlace : Obligations.InitStreamSeedsNonZeroAtItsPlace := by
  intro seed i k s h1 h63 hi
  obtain ⟨f, m, -, hf, hm, hexec⟩ := exec_initStream_of_valid ⟨h1, h63, hi⟩ seed
  have hslow := streamSlow_toNat ⟨h1, h63, hi⟩
  have hne : streamSlow i k ≠ 0 := fun hzero => by
    have hnat : (streamSlow i k).toNat = 0 := congrArg BitVec.toNat hzero
    omega
  exact ⟨_, ⟨hf, hne, hm⟩, hslow, hexec s⟩

/-- Settles O37: the positions listed are those of the two draws, counted from the start of the stream. -/
theorem initStreamTakesItsOwnWords : Obligations.InitStreamTakesItsOwnWords := by
  intro cfg seed i k s h1 h63 hi
  simp only [← splitterWord_streamSplitter]
  refine ⟨fun p1 p2 hp1 hp2 h => ?_, fun h => ?_⟩
  · obtain ⟨f1, f2⟩ := (firstAfter_two hp1 hp2).mp h
    exact initStreamWith_of_draws ⟨h1, h63, hi⟩ (streamDraws_of_firstAfter f1 f2) s
  · have hnone : streamDraws cfg seed i = none := streamDraws_of_no_firstAfter fun p1 p2 f1 f2 =>
      h p1 p2 f1.1 f2.1 ((firstAfter_two f1.1 f2.1).mpr ⟨f1, f2⟩)
    exact initStreamWith_of_no_draws ⟨h1, h63, hi⟩ hnone s

/-! ### The properties of a partition (42_stream_partitioner.md section 4) -/

/-- Settles O38: the `slow_loop` words are a multiple of a positive spacing apart. -/
theorem partitionIsDistinctAndEvenlySpaced : Obligations.PartitionIsDistinctAndEvenlySpaced := by
  intro seed i j k s h1 h63 hij hj
  have hvi : ValidOperands i k := ⟨h1, h63, hij.trans hj⟩
  have hvj : ValidOperands j k := ⟨h1, h63, hj⟩
  obtain ⟨fi, mi, -, -, -, hexeci⟩ := exec_initStream_of_valid hvi seed
  obtain ⟨fj, mj, -, -, -, hexecj⟩ := exec_initStream_of_valid hvj seed
  have hpos : 0 < 2 ^ 64 / k.toNat := Nat.div_pos (by omega) h1
  have hlt : (streamSlow i k).toNat < (streamSlow j k).toNat := by
    rw [streamSlow_toNat hvi, streamSlow_toNat hvj]
    exact Nat.add_lt_add_left (Nat.mul_lt_mul_of_pos_right hij hpos) 1
  have hne : streamSlow i k ≠ streamSlow j k := fun heq => hlt.ne (congrArg BitVec.toNat heq)
  refine ⟨_, _, _, _, hexeci s, hexecj s, rfl, rfl, hne, fun hnext => ⟨?_, hlt⟩⟩
  change (streamSlow j k).toNat - (streamSlow i k).toNat = _
  rw [streamSlow_toNat hvi, streamSlow_toNat hvj, hnext, Nat.succ_mul]
  omega

/-- Settles O39: the draws do not look at the count, nor the place of a stream at the seed. -/
theorem streamWordsDependOnTheirOperandsOnly : Obligations.StreamWordsDependOnTheirOperandsOnly := by
  intro seed seed' i k k' s t u v x y z ht hu hv h1 h63 hi h1' h63' hi' hx hy hz
  obtain ⟨f, m, hdraws, -, -, hexec⟩ := exec_initStream_of_valid ⟨h1, h63, hi⟩ seed
  obtain ⟨f', m', -, -, -, hexec'⟩ := exec_initStream_of_valid ⟨h1, h63, hi⟩ seed'
  obtain ⟨f'', m'', hdraws'', -, -, hexec''⟩ := exec_initStream_of_valid ⟨h1', h63', hi'⟩ seed
  cases (hexec s).symm.trans ht
  cases (hexec' s).symm.trans hu
  cases (hexec'' s).symm.trans hv
  cases hdraws.symm.trans hdraws''
  obtain rfl := Option.some.inj hx
  obtain rfl := Option.some.inj hy
  obtain rfl := Option.some.inj hz
  exact ⟨rfl, rfl, rfl⟩

/-- Different positions of a seed's sequence hold different words, for a bijective finalizer (42_stream_partitioner.md
R80). -/
theorem splitterWord_inj {cfg : Config} (hcfg : cfg.FinBijective) {seed : Word} {a b : Nat}
    (ha : 1 ≤ a ∧ a ≤ 2 ^ 64) (hb : 1 ≤ b ∧ b ≤ 2 ^ 64) (h : splitterWord cfg seed a = splitterWord cfg seed b) :
    a = b :=
  splitterAt_inj ha hb (hcfg.injective h)

/-- Settles O40: the four words stand at four different positions of the one sequence. -/
theorem streamsOfOneSeedShareNoWord : Obligations.StreamsOfOneSeedShareNoWord := by
  intro cfg seed i j k s hcfg h1 h63 hi hj hij hne
  have hijNat : i.toNat ≠ j.toNat := fun h => hij (BitVec.eq_of_toNat_eq h)
  have hdistinct (p q : Nat) (hp : p = 1 ∨ p = 2) (hq : q = 1 ∨ q = 2) :
      splitterWord cfg seed (2 * i.toNat + p) ≠ splitterWord cfg seed (2 * j.toNat + q) := fun h => by
    have := splitterWord_inj hcfg (by omega) (by omega) h
    omega
  simp only [← splitterWord_streamSplitter] at hne hdistinct
  have hdrawsi := streamDraws_of_ne_zero fun p hp => (hne p hp).left
  have hdrawsj := streamDraws_of_ne_zero fun p hp => (hne p hp).right
  refine ⟨_, _, congrArg State.words (initStreamWith_of_draws ⟨h1, h63, hi⟩ hdrawsi s),
    congrArg State.words (initStreamWith_of_draws ⟨h1, h63, hj⟩ hdrawsj s), ?_, ?_, ?_, ?_⟩
  · exact hdistinct 1 1 (.inl rfl) (.inl rfl)
  · exact hdistinct 2 2 (.inr rfl) (.inr rfl)
  · exact hdistinct 1 2 (.inl rfl) (.inr rfl)
  · exact hdistinct 2 1 (.inr rfl) (.inl rfl)

/-- Settles O41: the last stream lies `(k - 1) q` above the first, and `k q` and the remainder are 2^64. -/
theorem wrapGapIsSpacingPlusRemainder : Obligations.WrapGapIsSpacingPlusRemainder := by
  intro seed first last k s h1 h63 hfirst hlast
  have hlastNat : last.toNat = k.toNat - 1 := by
    rw [hlast, BitVec.toNat_sub_of_le (show (1 : Word) ≤ k from h1)]
    rfl
  have hfirstNat : first.toNat = 0 := congrArg BitVec.toNat hfirst
  have hvf : ValidOperands first k := ⟨h1, h63, by omega⟩
  have hvl : ValidOperands last k := ⟨h1, h63, by omega⟩
  obtain ⟨ff, mf, -, -, -, hexecf⟩ := exec_initStream_of_valid hvf seed
  obtain ⟨fl, ml, -, -, -, hexecl⟩ := exec_initStream_of_valid hvl seed
  have hone : (streamSlow first k).toNat = 1 := by
    rw [streamSlow_toNat hvf, hfirstNat, Nat.zero_mul]
  refine ⟨_, _, _, _, hexecf s, hexecl s, rfl, rfl, BitVec.eq_of_toNat_eq hone, ?_⟩
  change 2 ^ 64 + (streamSlow first k).toNat - (streamSlow last k).toNat = _
  have hdiv := Nat.div_add_mod (2 ^ 64) k.toNat
  obtain ⟨n, hn⟩ : ∃ n, k.toNat = n + 1 := ⟨k.toNat - 1, by omega⟩
  rw [hone, streamSlow_toNat hvl, hlastNat]
  rw [hn, Nat.succ_mul] at hdiv
  rw [hn, Nat.add_sub_cancel]
  generalize 2 ^ 64 / (n + 1) = q, 2 ^ 64 % (n + 1) = r at hdiv ⊢
  omega

/-! ### Construction commands forget the state before (20_memory.md R28, 41_seeding.md R75) -/

/-- A construction command on the engine as built writes one State, whatever the state before. -/
theorem exec_construction {i : Instr}
    (hi : (∃ a b c : Word, i = .load a b c) ∨ (∃ seed : Word, i = .init seed) ∨
      ∃ seed idx k : Word, i = .initStream seed idx k ∧ 1 ≤ k.toNat ∧ k.toNat ≤ 2 ^ 63 ∧ idx.toNat < k.toNat) :
    ∃ w : Triple, ∀ s : State,
      exec i s = .next { s with words := some w, outgoing := s.outgoing ++ [.status .ok] } := by
  obtain ⟨a, b, c, rfl⟩ | ⟨seed, rfl⟩ | ⟨seed, idx, k, rfl, hvalid⟩ := hi
  · exact ⟨_, fun s => StateAccessFamily.exec_load s a b c⟩
  · obtain ⟨w, hw⟩ := initTriple_of_finZero engineConfig_finZero seed
    exact ⟨w, exec_init_of_some hw⟩
  · obtain ⟨f, m, -, -, -, hexec⟩ := exec_initStream_of_valid hvalid seed
    exact ⟨_, hexec⟩

/-- Settles O45: it is the same State from either state, and once more. -/
theorem constructionForgetsTheStateBefore : Obligations.ConstructionForgetsTheStateBefore := by
  intro i s t hi
  obtain ⟨w, hexec⟩ := exec_construction hi
  exact ⟨_, _, _, hexec s, hexec t, hexec _, rfl, rfl⟩

end Sys2Proof.Proofs.OtherFamily
end
